-- ==== Sys2Proof/Word.lean ====
section
/-! DEFINITION. The widths of the CHIP-8 core as bit vectors (spec/00_scope.md R5, R9; spec/30_encoding.md R92).
Only what the spec adds, shifts, masks or encodes is a bit vector; counts and coordinates are numbers. -/

namespace Sys2Proof

/-- A memory byte, a general register, a timer value (R5, `XLEN`). -/
abbrev Byte := BitVec 8

/-- An instruction word, `I`, `PC`, a stack entry, `RNG` (R5, `ALEN`; R32). -/
abbrev Word := BitVec 16

/-- A register index: field `x` or `y` of an instruction (R92). -/
abbrev RegIx := BitVec 4

/-- The 4-bit field `n` (R92). -/
abbrev Nibble := BitVec 4

/-- The 12-bit address immediate `nnn` (R92). -/
abbrev Addr12 := BitVec 12

/-- A count of microseconds: `TIME` and the two timestamps (R29, R271). -/
abbrev Time := BitVec 64

end Sys2Proof
end

