-- ==== Sys2Proof/Config.lean ====
section
/-! DEFINITION. What is fixed for one machine: the fixed parameters of spec/00_scope.md R5, the open parameters of R6
(plain data in `Config`, which `State` carries so that every statement about all states holds for every choice of them),
the two uninterpreted functions of the random source (R6, spec/46_random.md R251), and the free draws (R252). -/

namespace Sys2Proof

/-- `MEM_SIZE` (R5): addresses 0x000 to 0xFFF. -/
@[simp] abbrev memSize : Nat := 4096

/-- `PROG_BASE` (R5): load address of an image and reset value of `PC`. -/
@[simp] abbrev progBase : Nat := 0x200

/-- `MAX_IMAGE` (R5): the largest image in bytes. -/
@[simp] abbrev maxImage : Nat := 3584

/-- `STACK_DEPTH` (R5). -/
@[simp] abbrev stackDepth : Nat := 16

/-- `FB_W` (R5): framebuffer columns. -/
@[simp] abbrev fbWidth : Nat := 64

/-- `FB_H` (R5): framebuffer rows. -/
@[simp] abbrev fbHeight : Nat := 32

/-- `GLYPH_STRIDE` (R5): bytes between font glyphs. -/
@[simp] abbrev glyphStride : Nat := 5

/-- The open parameters of R6 that are values, and the reset contents that R41 leaves unspecified.
No step and no host action changes them. -/
structure Config where
  /-- `TICK_US`: one timer tick in microseconds, a positive integer (R6, D1). -/
  tickUs : Nat
  /-- `FONT`: the bytes that reset puts at 0x000 to 0x04F (R6, D6). -/
  font : Vector Byte 80
  /-- `RNG_SEED`: the reset value of `RNG` (R6, D5). -/
  rngSeed : Word
  /-- What the sixteen `STACK` entries hold after reset: unspecified by R41. -/
  stackAtReset : Vector Word 16
  deriving DecidableEq, Repr

/-- The defaults of R6 (`TICK_US` 16667, `FONT` zero).
DESIGN CHOICE (log entries 3 and 4, unsafe): `RNG_SEED` and the stack contents, for which the spec gives none, are 0. -/
def Config.standard : Config where
  tickUs := 16667
  font := Vector.replicate 80 0#8
  rngSeed := 0#16
  stackAtReset := Vector.replicate 16 0#16

/-- R6: `TICK_US` is positive. -/
abbrev Config.wf (c : Config) : Prop := 0 < c.tickUs

/-- `rng_next` (R6, R251): the next-state function of the random source, which the spec leaves open.
A free value (log entry 6, safe): it has no body, so nothing is known of it. -/
opaque Config.rngNext : Word → Word

/-- `rng_byte` (R6, R251): the output function of the random source, which the spec leaves open.
A free value (log entry 6, safe): it has no body, so nothing is known of it. -/
opaque Config.rngByte : Word → Byte

/-- The byte of each draw for which the environment names none (R252): a free value (log entry 6, safe), a new one for
every draw, since a draw's number never comes again, not even after a reset. -/
opaque Config.freeDraw : Nat → Byte

end Sys2Proof
end

