-- ==== Sys2Proof/Syntax.lean ====
section
/-! DEFINITION. The 34 instructions of spec/30_encoding.md R95, one constructor per row of spec/opcode_table.json, in the
table's order. Field widths are those of R92, so every field value is one the encoding admits (R97). -/

namespace Sys2Proof

/-- One constructor per row of the opcode table; the docstring gives the row's pattern and the rule of its meaning. -/
inductive Instr where
  /-- `00E0` clear the framebuffer (R210). -/
  | cls
  /-- `00EE` return from subroutine (R140). -/
  | ret
  /-- `1nnn` jump (R141). -/
  | jp (nnn : Addr12)
  /-- `2nnn` call subroutine (R142). -/
  | call (nnn : Addr12)
  /-- `3xnn` skip if register equals immediate (R143). -/
  | seImm (x : RegIx) (nn : Byte)
  /-- `4xnn` skip if register differs from immediate (R144). -/
  | sneImm (x : RegIx) (nn : Byte)
  /-- `5xy0` skip if registers equal (R145). -/
  | seReg (x y : RegIx)
  /-- `6xnn` load immediate (R160). -/
  | ldImm (x : RegIx) (nn : Byte)
  /-- `7xnn` add immediate (R161). -/
  | addImm (x : RegIx) (nn : Byte)
  /-- `8xy0` copy register (R162). -/
  | ldReg (x y : RegIx)
  /-- `8xy1` bitwise or (R163). -/
  | orReg (x y : RegIx)
  /-- `8xy2` bitwise and (R164). -/
  | andReg (x y : RegIx)
  /-- `8xy3` bitwise exclusive or (R165). -/
  | xorReg (x y : RegIx)
  /-- `8xy4` add with carry flag (R166). -/
  | addReg (x y : RegIx)
  /-- `8xy5` subtract with not-borrow flag (R167). -/
  | subReg (x y : RegIx)
  /-- `8xy6` shift right by one (R168). -/
  | shrReg (x y : RegIx)
  /-- `8xy7` reverse subtract with not-borrow flag (R169). -/
  | subnReg (x y : RegIx)
  /-- `8xyE` shift left by one (R170). -/
  | shlReg (x y : RegIx)
  /-- `9xy0` skip if registers differ (R146). -/
  | sneReg (x y : RegIx)
  /-- `Annn` load index register (R190). -/
  | ldI (nnn : Addr12)
  /-- `Bnnn` jump with offset `V0` (R147). -/
  | jpV0 (nnn : Addr12)
  /-- `Cxnn` random byte under mask (R250). -/
  | rnd (x : RegIx) (nn : Byte)
  /-- `Dxyn` draw a sprite and detect collision (R211). -/
  | drw (x y : RegIx) (n : Nibble)
  /-- `Ex9E` skip if key held (R230). -/
  | skp (x : RegIx)
  /-- `ExA1` skip if key not held (R231). -/
  | sknp (x : RegIx)
  /-- `Fx07` read the delay timer (R232). -/
  | ldVxDT (x : RegIx)
  /-- `Fx0A` wait for a key (R233). -/
  | ldVxK (x : RegIx)
  /-- `Fx15` set the delay timer (R234). -/
  | ldDTVx (x : RegIx)
  /-- `Fx18` set the sound timer (R235). -/
  | ldSTVx (x : RegIx)
  /-- `Fx1E` add register to index (R191). -/
  | addI (x : RegIx)
  /-- `Fx29` point `I` at a font glyph (R192). -/
  | ldF (x : RegIx)
  /-- `Fx33` store binary-coded decimal (R193). -/
  | ldB (x : RegIx)
  /-- `Fx55` store `V0` to `Vx` at `I` (R194). -/
  | storeRegs (x : RegIx)
  /-- `Fx65` load `V0` to `Vx` from `I` (R195). -/
  | loadRegs (x : RegIx)
  deriving DecidableEq, Repr

end Sys2Proof
end

