-- ==== Sys2Proof/WellFormed.lean ====
section
/-! DEFINITION. Well-formedness, of words and of instructions.
A WORD is legal when it matches a row of the opcode map of spec/30_encoding.md R95, written here as that rule writes it
(match and mask), independently of the decoder; every other word is invalid (R96).
An INSTRUCTION is well formed when its fields have legal values: R97 says that no field of a valid instruction has a
reserved value, and the field types of `Instr` have exactly the widths of R92, so there is no ill-formed `Instr`. -/

namespace Sys2Proof

/-- One row of R95: a word `w` is this instruction exactly when `w &&& mask = value`. -/
structure OpcodeRow where
  /-- The hex pattern, the normative name of the instruction (R100). -/
  pattern : String
  /-- The column "match" of R95. -/
  value : Word
  /-- The column "mask" of R95. -/
  mask : Word
  deriving DecidableEq, Repr

/-- R95: the row applies to the word. -/
def OpcodeRow.applies (r : OpcodeRow) (w : Word) : Bool := w &&& r.mask == r.value

/-- The row of R95 that each constructor stands for. -/
def Instr.row : Instr → OpcodeRow
  | .cls => ⟨"00E0", 0x00E0#16, 0xFFFF#16⟩
  | .ret => ⟨"00EE", 0x00EE#16, 0xFFFF#16⟩
  | .jp _ => ⟨"1nnn", 0x1000#16, 0xF000#16⟩
  | .call _ => ⟨"2nnn", 0x2000#16, 0xF000#16⟩
  | .seImm _ _ => ⟨"3xnn", 0x3000#16, 0xF000#16⟩
  | .sneImm _ _ => ⟨"4xnn", 0x4000#16, 0xF000#16⟩
  | .seReg _ _ => ⟨"5xy0", 0x5000#16, 0xF00F#16⟩
  | .ldImm _ _ => ⟨"6xnn", 0x6000#16, 0xF000#16⟩
  | .addImm _ _ => ⟨"7xnn", 0x7000#16, 0xF000#16⟩
  | .ldReg _ _ => ⟨"8xy0", 0x8000#16, 0xF00F#16⟩
  | .orReg _ _ => ⟨"8xy1", 0x8001#16, 0xF00F#16⟩
  | .andReg _ _ => ⟨"8xy2", 0x8002#16, 0xF00F#16⟩
  | .xorReg _ _ => ⟨"8xy3", 0x8003#16, 0xF00F#16⟩
  | .addReg _ _ => ⟨"8xy4", 0x8004#16, 0xF00F#16⟩
  | .subReg _ _ => ⟨"8xy5", 0x8005#16, 0xF00F#16⟩
  | .shrReg _ _ => ⟨"8xy6", 0x8006#16, 0xF00F#16⟩
  | .subnReg _ _ => ⟨"8xy7", 0x8007#16, 0xF00F#16⟩
  | .shlReg _ _ => ⟨"8xyE", 0x800E#16, 0xF00F#16⟩
  | .sneReg _ _ => ⟨"9xy0", 0x9000#16, 0xF00F#16⟩
  | .ldI _ => ⟨"Annn", 0xA000#16, 0xF000#16⟩
  | .jpV0 _ => ⟨"Bnnn", 0xB000#16, 0xF000#16⟩
  | .rnd _ _ => ⟨"Cxnn", 0xC000#16, 0xF000#16⟩
  | .drw _ _ _ => ⟨"Dxyn", 0xD000#16, 0xF000#16⟩
  | .skp _ => ⟨"Ex9E", 0xE09E#16, 0xF0FF#16⟩
  | .sknp _ => ⟨"ExA1", 0xE0A1#16, 0xF0FF#16⟩
  | .ldVxDT _ => ⟨"Fx07", 0xF007#16, 0xF0FF#16⟩
  | .ldVxK _ => ⟨"Fx0A", 0xF00A#16, 0xF0FF#16⟩
  | .ldDTVx _ => ⟨"Fx15", 0xF015#16, 0xF0FF#16⟩
  | .ldSTVx _ => ⟨"Fx18", 0xF018#16, 0xF0FF#16⟩
  | .addI _ => ⟨"Fx1E", 0xF01E#16, 0xF0FF#16⟩
  | .ldF _ => ⟨"Fx29", 0xF029#16, 0xF0FF#16⟩
  | .ldB _ => ⟨"Fx33", 0xF033#16, 0xF0FF#16⟩
  | .storeRegs _ => ⟨"Fx55", 0xF055#16, 0xF0FF#16⟩
  | .loadRegs _ => ⟨"Fx65", 0xF065#16, 0xF0FF#16⟩

/-- One instruction of each row, in the table's order. -/
def Instr.representatives : List Instr :=
  [.cls, .ret, .jp 0, .call 0, .seImm 0 0, .sneImm 0 0, .seReg 0 0, .ldImm 0 0, .addImm 0 0] ++
   [.ldReg 0 0, .orReg 0 0, .andReg 0 0, .xorReg 0 0, .addReg 0 0, .subReg 0 0, .shrReg 0 0, .subnReg 0 0, .shlReg 0 0] ++
   [.sneReg 0 0, .ldI 0, .jpV0 0, .rnd 0 0, .drw 0 0 0, .skp 0, .sknp 0, .ldVxDT 0, .ldVxK 0] ++
   [.ldDTVx 0, .ldSTVx 0, .addI 0, .ldF 0, .ldB 0, .storeRegs 0, .loadRegs 0]

/-- The rows of R95, in the table's order. -/
def opcodeTable : List OpcodeRow := Instr.representatives.map Instr.row

/-- R95, R96: the word matches a row of the opcode map. Every other word is invalid. -/
def wordLegal (w : Word) : Bool := opcodeTable.any (·.applies w)

/-- An instruction is well formed when its row is a row of the opcode map. Its fields need no check: every value of
every field is legal in every instruction that has the field (R97), and `Instr`'s field types hold no other value. -/
def Instr.wellFormed (i : Instr) : Bool := opcodeTable.contains i.row

end Sys2Proof
end

