-- ==== Sys2Proof/Decode.lean ====
section
/-! DEFINITION. The decoder (spec/30_encoding.md R92, R94, R96), total on words and on bytes and rejecting by name, and the
encoder written from the same formats (R91, R95). -/

namespace Sys2Proof

/-! ## Fields of the word (R92) -/

/-- Field `op`: bits 15 to 12. -/
def opOf (w : Word) : Nibble := w.extractLsb' 12 4
/-- Field `x`: bits 11 to 8. -/
def xOf (w : Word) : RegIx := w.extractLsb' 8 4
/-- Field `y`: bits 7 to 4. -/
def yOf (w : Word) : RegIx := w.extractLsb' 4 4
/-- Field `n`: bits 3 to 0. -/
def nOf (w : Word) : Nibble := w.extractLsb' 0 4
/-- Field `nn`: bits 7 to 0. -/
def nnOf (w : Word) : Byte := w.extractLsb' 0 8
/-- Field `nnn`: bits 11 to 0. -/
def nnnOf (w : Word) : Addr12 := w.extractLsb' 0 12

/-! ## Decoding (R94) -/

/-- Why bytes are no instruction: an invalid word of one of the six families of R96, or fewer than two bytes (R90). -/
inductive Reject where
  /-- Fewer than the two bytes of an instruction (R90). -/
  | tooShort
  /-- `0nnn` other than `00E0`, `00EE`. -/
  | invalidFamily0
  /-- `5xyN` with `N` not 0. -/
  | invalidFamily5
  /-- `8xyN` with `N` in 8, 9, A, B, C, D, F. -/
  | invalidFamily8
  /-- `9xyN` with `N` not 0. -/
  | invalidFamily9
  /-- `Exkk` with `kk` not 9E, A1. -/
  | invalidFamilyE
  /-- `Fxkk` with `kk` none of the nine sub-opcodes. -/
  | invalidFamilyF
  deriving DecidableEq, Repr

/-- Family 0: the whole word selects. -/
def decode0 (w : Word) : Except Reject Instr :=
  if w = 0x00E0#16 then .ok .cls
  else if w = 0x00EE#16 then .ok .ret
  else .error .invalidFamily0

/-- Family 8: `n` selects. -/
def decode8 (x y : RegIx) (n : Nibble) : Except Reject Instr :=
  match n.toNat with
  | 0x0 => .ok (.ldReg x y)
  | 0x1 => .ok (.orReg x y)
  | 0x2 => .ok (.andReg x y)
  | 0x3 => .ok (.xorReg x y)
  | 0x4 => .ok (.addReg x y)
  | 0x5 => .ok (.subReg x y)
  | 0x6 => .ok (.shrReg x y)
  | 0x7 => .ok (.subnReg x y)
  | 0xE => .ok (.shlReg x y)
  | _ => .error .invalidFamily8

/-- Family E: `nn` selects. -/
def decodeE (x : RegIx) (nn : Byte) : Except Reject Instr :=
  if nn = 0x9E#8 then .ok (.skp x)
  else if nn = 0xA1#8 then .ok (.sknp x)
  else .error .invalidFamilyE

/-- Family F: `nn` selects. -/
def decodeF (x : RegIx) (nn : Byte) : Except Reject Instr :=
  if nn = 0x07#8 then .ok (.ldVxDT x)
  else if nn = 0x0A#8 then .ok (.ldVxK x)
  else if nn = 0x15#8 then .ok (.ldDTVx x)
  else if nn = 0x18#8 then .ok (.ldSTVx x)
  else if nn = 0x1E#8 then .ok (.addI x)
  else if nn = 0x29#8 then .ok (.ldF x)
  else if nn = 0x33#8 then .ok (.ldB x)
  else if nn = 0x55#8 then .ok (.storeRegs x)
  else if nn = 0x65#8 then .ok (.loadRegs x)
  else .error .invalidFamilyF

/-- R94: dispatch on the top nibble, then on the family's sub-selector. A function of the word alone. -/
def decodeWord (w : Word) : Except Reject Instr :=
  match (opOf w).toNat with
  | 0x0 => decode0 w
  | 0x1 => .ok (.jp (nnnOf w))
  | 0x2 => .ok (.call (nnnOf w))
  | 0x3 => .ok (.seImm (xOf w) (nnOf w))
  | 0x4 => .ok (.sneImm (xOf w) (nnOf w))
  | 0x5 => if nOf w = 0#4 then .ok (.seReg (xOf w) (yOf w)) else .error .invalidFamily5
  | 0x6 => .ok (.ldImm (xOf w) (nnOf w))
  | 0x7 => .ok (.addImm (xOf w) (nnOf w))
  | 0x8 => decode8 (xOf w) (yOf w) (nOf w)
  | 0x9 => if nOf w = 0#4 then .ok (.sneReg (xOf w) (yOf w)) else .error .invalidFamily9
  | 0xA => .ok (.ldI (nnnOf w))
  | 0xB => .ok (.jpV0 (nnnOf w))
  | 0xC => .ok (.rnd (xOf w) (nnOf w))
  | 0xD => .ok (.drw (xOf w) (yOf w) (nOf w))
  | 0xE => decodeE (xOf w) (nnOf w)
  | _ => decodeF (xOf w) (nnOf w)

/-- R64, R90: the word of two bytes, `hi * 256 + lo`, with `hi` the byte at the lower address. -/
def wordOfBytes (hi lo : Byte) : Word := BitVec.ofNat 16 (hi.toNat * 256 + lo.toNat)

/-- R64, R66: the byte at the lower address of a word. -/
def highByte (w : Word) : Byte := w.extractLsb' 8 8

/-- R64, R66: the byte at the higher address of a word. -/
def lowByte (w : Word) : Byte := w.extractLsb' 0 8

/-- The instruction at the head of a byte sequence, and the bytes after it. -/
def decodeBytes : List Byte → Except Reject (Instr × List Byte)
  | hi :: lo :: rest =>
    match decodeWord (wordOfBytes hi lo) with
    | .ok i => .ok (i, rest)
    | .error r => .error r
  | _ => .error .tooShort

/-! ## Encoding (R91, R95) -/

/-- Format `A`: `op` in bits 15 to 12, `nnn` below. -/
def formatA (op : Nibble) (nnn : Addr12) : Word := BitVec.ofNat 16 (op.toNat * 4096 + nnn.toNat)
/-- Formats `XI` and `X`: `op`, then `x` in bits 11 to 8, then `nn` (for `X` the fixed sub-opcode). -/
def formatXI (op : Nibble) (x : RegIx) (nn : Byte) : Word :=
  BitVec.ofNat 16 (op.toNat * 4096 + x.toNat * 256 + nn.toNat)
/-- Formats `XYN` and `XY`: `op`, `x`, then `y` in bits 7 to 4, then `n` (for `XY` the fixed sub-opcode). -/
def formatXYN (op : Nibble) (x y : RegIx) (n : Nibble) : Word :=
  BitVec.ofNat 16 (op.toNat * 4096 + x.toNat * 256 + y.toNat * 16 + n.toNat)

/-- The word of an instruction. -/
def encode : Instr → Word
  | .cls => 0x00E0#16
  | .ret => 0x00EE#16
  | .jp nnn => formatA 0x1 nnn
  | .call nnn => formatA 0x2 nnn
  | .seImm x nn => formatXI 0x3 x nn
  | .sneImm x nn => formatXI 0x4 x nn
  | .seReg x y => formatXYN 0x5 x y 0x0
  | .ldImm x nn => formatXI 0x6 x nn
  | .addImm x nn => formatXI 0x7 x nn
  | .ldReg x y => formatXYN 0x8 x y 0x0
  | .orReg x y => formatXYN 0x8 x y 0x1
  | .andReg x y => formatXYN 0x8 x y 0x2
  | .xorReg x y => formatXYN 0x8 x y 0x3
  | .addReg x y => formatXYN 0x8 x y 0x4
  | .subReg x y => formatXYN 0x8 x y 0x5
  | .shrReg x y => formatXYN 0x8 x y 0x6
  | .subnReg x y => formatXYN 0x8 x y 0x7
  | .shlReg x y => formatXYN 0x8 x y 0xE
  | .sneReg x y => formatXYN 0x9 x y 0x0
  | .ldI nnn => formatA 0xA nnn
  | .jpV0 nnn => formatA 0xB nnn
  | .rnd x nn => formatXI 0xC x nn
  | .drw x y n => formatXYN 0xD x y n
  | .skp x => formatXI 0xE x 0x9E
  | .sknp x => formatXI 0xE x 0xA1
  | .ldVxDT x => formatXI 0xF x 0x07
  | .ldVxK x => formatXI 0xF x 0x0A
  | .ldDTVx x => formatXI 0xF x 0x15
  | .ldSTVx x => formatXI 0xF x 0x18
  | .addI x => formatXI 0xF x 0x1E
  | .ldF x => formatXI 0xF x 0x29
  | .ldB x => formatXI 0xF x 0x33
  | .storeRegs x => formatXI 0xF x 0x55
  | .loadRegs x => formatXI 0xF x 0x65

/-- The bytes of an instruction as memory holds them: the high byte at the lower address (R66). -/
def encodeBytes (i : Instr) : List Byte := [highByte (encode i), lowByte (encode i)]

/-! ## The opcode table's numbering -/

/-- The 16-bit instruction word in the low bits of a table number of `nbits` bits: every bit above `nbits` is 0, and
every row of the table has 16 bits, with bit 0 the least significant bit of the word. -/
def tableWord (nbits w : Nat) : Word := BitVec.ofNat 16 (w % 2 ^ nbits)

/-- The instruction the decoder reads from the bytes of a table word. -/
def decodeTableWord (nbits w : Nat) : Option Instr :=
  match decodeBytes [highByte (tableWord nbits w), lowByte (tableWord nbits w)] with
  | .ok (i, _) => some i
  | .error _ => none

end Sys2Proof
end

