-- ==== Sys2Proof/Machine/Memory.lean ====
section
/-! DEFINITION. The main memory `MEM` (spec/10_state.md R30; spec/20_memory.md R60, R69) as a list of address and byte
pairs in one canonical form: addresses strictly rising and inside the address space, no byte listed that an unlisted
address reads as. Equal memories are equal lists. Bounds checks are in Machine/Ops.lean. -/

namespace Sys2Proof.Machine

/-- The bytes of `MEM` that differ from what an unlisted address reads as. -/
abbrev Memory := List Host.Cell

/-- What an unlisted address reads as: the zero of reset memory (R41, "zeroed memory"). -/
def Memory.unlisted : Byte := 0#8

/-- The byte `MEM[a]`. -/
def Memory.read : Memory → Nat → Byte
  | [], _ => Memory.unlisted
  | (k, b) :: rest, a => if k = a then b else Memory.read rest a

/-- Put a byte in front of a canonical list whose addresses are all above `a`. -/
def Memory.consCell (a : Nat) (b : Byte) (m : Memory) : Memory :=
  if b = Memory.unlisted then m else (a, b) :: m

/-- `MEM[a] <- b`, keeping the canonical form. -/
def Memory.write : Memory → Nat → Byte → Memory
  | [], a, b => Memory.consCell a b []
  | (k, c) :: rest, a, b =>
    if a < k then Memory.consCell a b ((k, c) :: rest)
    else if a = k then Memory.consCell a b rest
    else (k, c) :: Memory.write rest a b

/-- The canonical form, with every listed address inside the 4096 of R60. -/
abbrev Memory.wf (m : Memory) : Prop :=
  m.Pairwise (fun c d => c.1 < d.1) ∧ ∀ c ∈ m, c.1 < memSize ∧ c.2 ≠ Memory.unlisted

/-- Write the bytes of a list at consecutive addresses from `a` up. -/
def Memory.writeBytes : Memory → Nat → List Byte → Memory
  | m, _, [] => m
  | m, a, b :: bs => Memory.writeBytes (Memory.write m a b) (a + 1) bs

end Sys2Proof.Machine
end

