-- ==== Sys2Proof/Machine/State.lean ====
section
/-! DEFINITION. The state of the machine as plain data: every piece of state of spec/10_state.md R20 to R33 and R40, the
inputs and parameters of a step (R34), the free draw (spec/46_random.md R252), and the three fields of the model's own
(log entries 6, 8 and 10); the five fault causes of spec/60_exceptions.md R261; the refusals; the state after reset (R41). -/

namespace Sys2Proof.Machine

/-- The fault causes of R261. A step that raises one answers a NEXT state whose `fault` field records it (log entry 1);
no step answers `Outcome.fault`, since the spec says what the state is after a raise (R260, R262). -/
inductive Fault where
  /-- Code 1 (R263): raised by the decode phase on a word that matches no row. Safe: the spec's own outcome. -/
  | invalidInstruction
  /-- Code 2 (R264): raised by the fetch and by `Dxyn`, `Fx33`, `Fx55`, `Fx65` just before an access at 4096 or more.
  Safe: the spec's own outcome. -/
  | memoryOutOfRange
  /-- Code 3 (R265): raised by `2nnn` with 16 entries in use. Safe: the spec's own outcome. -/
  | stackOverflow
  /-- Code 4 (R266): raised by `00EE` with no entry in use. Safe: the spec's own outcome. -/
  | stackUnderflow
  /-- Code 5 (R269): raised by `Ex9E`, `ExA1` with `Vx` above 15. Safe: the spec's own outcome. -/
  | invalidKeyIndex
  deriving DecidableEq, Repr

/-- Why the model gives a request no meaning. No step is refused. -/
inductive Refusal where
  /-- An instruction whose arm has no meaning yet. Raised by no arm of this model. Safe. -/
  | notModelled (mnemonic : String)
  /-- A `load` outside the window between reset and the first step (R318: "a model gives it no meaning (refuses it)").
  Raised by the host action `load`, by no step. Safe. -/
  | loadOutsideWindow
  deriving DecidableEq, Repr

/-- The fault record (R40). -/
structure FaultRecord where
  /-- The cause; its 3-bit code is `Fault.code`. -/
  cause : Fault
  /-- The address the faulting instruction was fetched from, or was to be fetched from. -/
  pc : Word
  /-- The instruction word; 0 for a fetch fault. -/
  opcode : Word
  /-- The byte address, or the key index, or 0. -/
  ea : BitVec 17
  deriving DecidableEq, Repr

/-- The inputs of a step: the host's (spec/00_scope.md R8, R34), which it presents during the next step, and the random
draw (R252). No step writes them (log entry 2). -/
structure Ports where
  /-- `TIME` in microseconds, sampled once at the start of a step (R271). -/
  time : Time
  /-- `key_held`: bit `k` is 1 while key `k` is held (R236). -/
  keyHeld : BitVec 16
  /-- `key_event(code)`: the event the host delivers while the step waits for a key, if any (R233). -/
  keyEvent : Option (BitVec 4)
  /-- The byte that a `Cxnn` of the step draws, a free input (R252). With none named the draw is a free value of its
  own, `Config.freeDraw` (log entry 6). -/
  draw : Option Byte
  deriving DecidableEq, Repr

/-- One framebuffer row: 64 pixels, column 0 first. -/
abbrev FbRow := Vector Bool 64

/-- The framebuffer (R31): 32 rows, row 0 first; a pixel is on or off. -/
abbrev Framebuffer := Vector FbRow 32

structure State where
  /-- `V0` to `VF` (R20, R21). -/
  v : Vector Byte 16
  /-- `I`, the index register (R22). -/
  index : Word
  /-- `PC` (R23). -/
  pc : Word
  /-- `STACK[0]` to `STACK[15]` (R26). -/
  stack : Vector Word 16
  /-- `SP`, the number of valid stack entries, 0 to 16 (R26). -/
  sp : Fin 17
  /-- `DT`, the delay timer (R27). -/
  dt : Byte
  /-- `ST`, the sound timer (R28). -/
  st : Byte
  /-- `DT_LAST` (R29). -/
  dtLast : Time
  /-- `ST_LAST` (R29). -/
  stLast : Time
  /-- `MEM` (R30). -/
  mem : Memory
  /-- `FB` (R31). -/
  fb : Framebuffer
  /-- `RNG`, the state of the random source (R32). -/
  rng : Word
  /-- `FAULT` (R40). -/
  fault : Option FaultRecord
  /-- The key-wait status (R33): `some x` while an `Fx0A` with destination `Vx` waits, when the port `key_wait` is 1. -/
  keyWait : Option RegIx
  /-- The model's own: how many `sound_trigger` events have been emitted since reset (R275, log entry 10). -/
  soundTriggers : Nat
  /-- The model's own: whether the window in which `load` is defined is open (R318, log entry 8). -/
  loadOpen : Bool
  /-- The model's own: how many draws have been made, resets included, so that no two draws are one free value (R252,
  log entry 6). -/
  draws : Nat
  /-- The inputs (R34, R252). -/
  ports : Ports
  /-- The parameters (R34, spec/00_scope.md R6). -/
  cfg : Config
  deriving DecidableEq, Repr

/-- The framebuffer with every pixel off. -/
def Framebuffer.blank : Framebuffer := Vector.replicate 32 (Vector.replicate 64 false)

/-- The machine right after reset (R41), for the parameters `Config.standard`, whose `FONT` is zero, so that memory lists
nothing. DESIGN CHOICE (log entry 5, unsafe): `TIME` is 0 at this reset, no key is held, no key event is delivered.
DESIGN CHOICE (log entry 6): no draw has been made and the environment names none. -/
def State.reset : State where
  v := Vector.replicate 16 0#8
  index := 0#16
  pc := 0x200#16
  stack := Config.standard.stackAtReset
  sp := 0
  dt := 0#8
  st := 0#8
  dtLast := 0#64
  stLast := 0#64
  mem := []
  fb := Framebuffer.blank
  rng := Config.standard.rngSeed
  fault := none
  keyWait := none
  soundTriggers := 0
  loadOpen := true
  draws := 0
  ports := { time := 0#64, keyHeld := 0#16, keyEvent := none, draw := none }
  cfg := Config.standard

end Sys2Proof.Machine
end

