-- ==== Sys2Proof/Machine/Ops.lean ====
section
/-! DEFINITION. The named operations every meaning is written over: register, stack and memory accesses, the skip, the
fetch, and raising a fault (spec/00_scope.md R10; spec/20_memory.md R62 to R64; spec/60_exceptions.md R260).
There is no return from a fault: only the host's reset clears the record (R267, R279; Machine/HostPort.lean). -/

namespace Sys2Proof.Machine

/-! ## Registers -/

/-- `V[x]` (R20). -/
def State.getV (s : State) (x : RegIx) : Byte := s.v[x.toNat]'x.isLt

/-- `V[x] <- b`. -/
def State.setV (s : State) (x : RegIx) (b : Byte) : State := { s with v := s.v.set x.toNat b x.isLt }

/-- The index of `VF`, the flag register (R21). -/
def vf : RegIx := 15#4

/-- `I <- w`. -/
def State.setIndex (s : State) (w : Word) : State := { s with index := w }

/-- `PC <- w`. -/
def State.setPc (s : State) (w : Word) : State := { s with pc := w }

/-- `DT <- b`. -/
def State.setDt (s : State) (b : Byte) : State := { s with dt := b }

/-- `ST <- b`. -/
def State.setSt (s : State) (b : Byte) : State := { s with st := b }

/-- `DT_LAST <- t`. -/
def State.setDtLast (s : State) (t : Time) : State := { s with dtLast := t }

/-- `ST_LAST <- t`. -/
def State.setStLast (s : State) (t : Time) : State := { s with stLast := t }

/-- `RNG <- w`. -/
def State.setRng (s : State) (w : Word) : State := { s with rng := w }

/-- One more draw has been made (R252, log entry 6). -/
def State.countDraw (s : State) : State := { s with draws := s.draws + 1 }

/-- Write the whole framebuffer. -/
def State.setFb (s : State) (f : Framebuffer) : State := { s with fb := f }

/-- Write the whole memory. -/
def State.setMem (s : State) (m : Memory) : State := { s with mem := m }

/-- Write the call stack and its depth. -/
def State.setStack (s : State) (k : Vector Word 16) (d : Fin 17) : State := { s with stack := k, sp := d }

/-- Write the fault record. -/
def State.setFault (s : State) (f : Option FaultRecord) : State := { s with fault := f }

/-- Write the key-wait status. -/
def State.setKeyWait (s : State) (k : Option RegIx) : State := { s with keyWait := k }

/-- Emit one `sound_trigger` event (R275). -/
def State.emitSound (s : State) : State := { s with soundTriggers := s.soundTriggers + 1 }

/-- The first step after reset closes the window for `load` (R318). -/
def State.closeLoad (s : State) : State := { s with loadOpen := false }

/-- The host presents its inputs for the next step (R8). -/
def State.setPorts (s : State) (p : Ports) : State := { s with ports := p }

/-- A taken skip: `PC <- PC + 2` when the condition holds (R143). -/
def State.skipIf (s : State) (c : Bool) : State := if c then s.setPc (s.pc + 2#16) else s

/-! ## The call stack (R26, R140, R142) -/

/-- Push a return address: none when 16 entries are in use. -/
def State.push (s : State) (w : Word) : Option State :=
  if h : s.sp.val < 16 then some (s.setStack (s.stack.set s.sp.val w h) ⟨s.sp.val + 1, by omega⟩) else none

/-- Pop the most recent return address: none when no entry is in use. The popped entry stays in place. -/
def State.pop (s : State) : Option (Word × State) :=
  if h : 0 < s.sp.val then
    some (s.stack[s.sp.val - 1]'(by omega), s.setStack s.stack ⟨s.sp.val - 1, by omega⟩)
  else none

/-! ## Raising a fault (R260, R261) -/

/-- The 3-bit cause code (R261). -/
def Fault.code : Fault → BitVec 3
  | .invalidInstruction => 1#3
  | .memoryOutOfRange => 2#3
  | .stackOverflow => 3#3
  | .stackUnderflow => 4#3
  | .invalidKeyIndex => 5#3

/-- `raise F(info)`: the record is written and nothing else changes; the step ends there because the state it answers is
the step's result. -/
def State.raise (s : State) (cause : Fault) (pc opcode : Word) (ea : Nat) : State :=
  s.setFault (some { cause := cause, pc := pc, opcode := opcode, ea := BitVec.ofNat 17 ea })

/-- A raise in the execute phase, where `PC` holds the fetch address plus 2 (R123, R261; log entry 11). -/
def State.raiseExec (s : State) (cause : Fault) (opcode : Word) (ea : Nat) : State :=
  s.raise cause (s.pc - 2#16) opcode ea

/-! ## Memory accesses (R62 to R65) -/

/-- `MemRead(a, 1)`: none when the address is 4096 or more. -/
def State.memRead (s : State) (a : Nat) : Option Byte := if a < memSize then some (s.mem.read a) else none

/-- `MemWrite(a, 1, b)`: none when the address is 4096 or more. -/
def State.memWrite (s : State) (a : Nat) (b : Byte) : Option State :=
  if a < memSize then some (s.setMem (s.mem.write a b)) else none

/-- Byte writes at ascending addresses from `a`; the first one out of range raises, the ones before it stay done
(R68, R262). `opcode` is the word of the storing instruction. -/
def State.storeSeq (s : State) (opcode : Word) (a : Nat) : List Byte → State
  | [] => s
  | b :: bs =>
    match s.memWrite a b with
    | some t => t.storeSeq opcode (a + 1) bs
    | none => s.raiseExec .memoryOutOfRange opcode a

/-- Load `count` registers from `V[i]` up with the bytes from address `a` up, ascending; the first byte out of range
raises, the registers before it stay loaded (R68, R262). -/
def State.loadSeq (s : State) (opcode : Word) (a i : Nat) : Nat → State
  | 0 => s
  | count + 1 =>
    match s.memRead a with
    | some b => (s.setV (BitVec.ofNat 4 i) b).loadSeq opcode (a + 1) (i + 1) count
    | none => s.raiseExec .memoryOutOfRange opcode a

/-! ## Fetch and advance (R122, R123) -/

/-- `MemRead(PC, 2)` (R64): the word, or the byte address that is out of range. -/
def State.fetch (s : State) : Except Nat Word :=
  match s.memRead s.pc.toNat with
  | none => .error s.pc.toNat
  | some hi =>
    match s.memRead (s.pc.toNat + 1) with
    | none => .error (s.pc.toNat + 1)
    | some lo => .ok (wordOfBytes hi lo)

/-- `PC <- A + 2`. -/
def State.advance (s : State) : State := s.setPc (s.pc + 2#16)

/-! ## Placing an instruction where the next step fetches it (log entry 9) -/

/-- The fetch needs an engine that is neither halted (R267) nor inside an `Fx0A` (R233), and a `PC` it can fetch from
(R64): an unfetchable `PC` becomes the entry point 0x200 (R312). -/
def State.readyToFetch (s : State) : State :=
  ((s.setFault none).setKeyWait none).setPc (if s.pc.toNat + 1 < memSize then s.pc else 0x200#16)

/-- The bytes of a word at `PC` and `PC + 1`, the high byte first (R64). -/
def State.placeWord (s : State) (w : Word) : State :=
  s.setMem (s.mem.writeBytes s.pc.toNat [highByte w, lowByte w])

end Sys2Proof.Machine
end

