-- ==== Sys2Proof/Machine/Flags.lean ====
section
/-! DEFINITION. The flag values written to `VF` (spec/10_state.md R21) and the write order of spec/00_scope.md R11:
`V[x]` first, `V[F]` last. The collision flag of `Dxyn` is in Machine/Display.lean. -/

namespace Sys2Proof.Machine

/-- A flag as `VF` holds it: 0 or 1 (R21). -/
def flagByte (c : Bool) : Byte := if c then 1#8 else 0#8

/-- `8xy4`: carry out of the sum (R166). -/
def carryFlag (a b : Byte) : Bool := decide (255 < a.toNat + b.toNat)

/-- `8xy5` with `a - b`, `8xy7` with `b - a`: no borrow (R167, R169). -/
def notBorrowFlag (minuend subtrahend : Byte) : Bool := decide (subtrahend.toNat ≤ minuend.toNat)

/-- `8xy6`: bit 0 of the source before the shift (R168). -/
def shrFlag (b : Byte) : Bool := b.getLsbD 0

/-- `8xyE`: bit 7 of the source before the shift (R170). -/
def shlFlag (b : Byte) : Bool := b.getLsbD 7

/-- `V[x] <- r`, then `V[F] <- flag` (R11). -/
def State.setWithFlag (s : State) (x : RegIx) (r : Byte) (flag : Bool) : State :=
  (s.setV x r).setV vf (flagByte flag)

end Sys2Proof.Machine
end

