-- ==== Sys2Proof/Machine/Operands.lean ====
section
/-! DEFINITION. The operand forms (spec/30_encoding.md R93; spec/43_index_memory.md): register, byte immediate (used as it
is), address immediate, register list, the address through `I`, and the key index. -/

namespace Sys2Proof.Machine

/-- `zext_16(nnn)` (R93): an address immediate as `PC` and `I` take it. -/
def addrOperand (nnn : Addr12) : Word := nnn.setWidth 16

/-- `zext_16(v)`: a register value as an addend of `I` or `PC`. -/
def wideOperand (b : Byte) : Word := b.setWidth 16

/-- `I + k` as an unbounded number (R65): the address of the `k`-th byte accessed through `I`. -/
def State.effAddr (s : State) (k : Nat) : Nat := s.index.toNat + k

/-- How many registers `V0` to `Vx` are (R194, R195). -/
def regCount (x : RegIx) : Nat := x.toNat + 1

/-- The values of `V0` to `Vx`, ascending (R194). -/
def State.regList (s : State) (x : RegIx) : List Byte :=
  (List.range (regCount x)).map fun i => s.getV (BitVec.ofNat 4 i)

/-- The decimal digits hundreds, tens, units (R193). -/
def bcdDigits (b : Byte) : List Byte :=
  [BitVec.ofNat 8 (b.toNat / 100), BitVec.ofNat 8 (b.toNat / 10 % 10), BitVec.ofNat 8 (b.toNat % 10)]

/-- A register value as a key index: none when it is above 15 (R230, R269). -/
def keyOperand (b : Byte) : Option (BitVec 4) := if b.toNat ≤ 15 then some (b.setWidth 4) else none

/-- `held(k)`: bit `k` of the port `key_held` (R230, R236). -/
def State.held (s : State) (k : BitVec 4) : Bool := s.ports.keyHeld.getLsbD k.toNat

end Sys2Proof.Machine
end

