-- ==== Sys2Proof/Machine/Alu.lean ====
section
/-! DEFINITION. Register load, arithmetic, logic and shift (spec/42_alu.md R160 to R171). Operands are read from the state
before anything is written (spec/00_scope.md R11). -/

namespace Sys2Proof.Machine

/-- `6xnn` (R160). -/
def execLdImm (x : RegIx) (nn : Byte) (s : State) : Host.Outcome State Fault Refusal := .next (s.setV x nn)

/-- `7xnn` (R161): modulo 256, no flag. -/
def execAddImm (x : RegIx) (nn : Byte) (s : State) : Host.Outcome State Fault Refusal := .next (s.setV x (s.getV x + nn))

/-- `8xy0` (R162). -/
def execLdReg (x y : RegIx) (s : State) : Host.Outcome State Fault Refusal := .next (s.setV x (s.getV y))

/-- `8xy1` (R163): `VF` is not written. -/
def execOrReg (x y : RegIx) (s : State) : Host.Outcome State Fault Refusal := .next (s.setV x (s.getV x ||| s.getV y))

/-- `8xy2` (R164): `VF` is not written. -/
def execAndReg (x y : RegIx) (s : State) : Host.Outcome State Fault Refusal := .next (s.setV x (s.getV x &&& s.getV y))

/-- `8xy3` (R165): `VF` is not written. -/
def execXorReg (x y : RegIx) (s : State) : Host.Outcome State Fault Refusal := .next (s.setV x (s.getV x ^^^ s.getV y))

/-- `8xy4` (R166). -/
def execAddReg (x y : RegIx) (s : State) : Host.Outcome State Fault Refusal :=
  .next (s.setWithFlag x (s.getV x + s.getV y) (carryFlag (s.getV x) (s.getV y)))

/-- `8xy5` (R167). -/
def execSubReg (x y : RegIx) (s : State) : Host.Outcome State Fault Refusal :=
  .next (s.setWithFlag x (s.getV x - s.getV y) (notBorrowFlag (s.getV x) (s.getV y)))

/-- `8xy6` (R168): the source is `Vy`. -/
def execShrReg (x y : RegIx) (s : State) : Host.Outcome State Fault Refusal :=
  .next (s.setWithFlag x (s.getV y >>> 1) (shrFlag (s.getV y)))

/-- `8xy7` (R169). -/
def execSubnReg (x y : RegIx) (s : State) : Host.Outcome State Fault Refusal :=
  .next (s.setWithFlag x (s.getV y - s.getV x) (notBorrowFlag (s.getV y) (s.getV x)))

/-- `8xyE` (R170): the source is `Vy`. -/
def execShlReg (x y : RegIx) (s : State) : Host.Outcome State Fault Refusal :=
  .next (s.setWithFlag x (s.getV y <<< 1) (shlFlag (s.getV y)))

end Sys2Proof.Machine
end

