-- ==== Sys2Proof/Machine/Control.lean ====
section
/-! DEFINITION. Control transfer (spec/41_control_flow.md R140 to R148). `PC` already holds the instruction's address plus 2
(spec/40_step_cycle.md R123). -/

namespace Sys2Proof.Machine

/-- `00EE` (R140, R266). -/
def execRet (s : State) : Host.Outcome State Fault Refusal :=
  match s.pop with
  | some (target, t) => .next (t.setPc target)
  | none => .next (s.raiseExec .stackUnderflow (encode .ret) 0)

/-- `1nnn` (R141). -/
def execJp (nnn : Addr12) (s : State) : Host.Outcome State Fault Refusal := .next (s.setPc (addrOperand nnn))

/-- `2nnn` (R142, R265): pushes the address after this instruction. -/
def execCall (nnn : Addr12) (s : State) : Host.Outcome State Fault Refusal :=
  match s.push s.pc with
  | some t => .next (t.setPc (addrOperand nnn))
  | none => .next (s.raiseExec .stackOverflow (encode (.call nnn)) 0)

/-- `3xnn` (R143). -/
def execSeImm (x : RegIx) (nn : Byte) (s : State) : Host.Outcome State Fault Refusal := .next (s.skipIf (s.getV x == nn))

/-- `4xnn` (R144). -/
def execSneImm (x : RegIx) (nn : Byte) (s : State) : Host.Outcome State Fault Refusal := .next (s.skipIf (s.getV x != nn))

/-- `5xy0` (R145). -/
def execSeReg (x y : RegIx) (s : State) : Host.Outcome State Fault Refusal := .next (s.skipIf (s.getV x == s.getV y))

/-- `9xy0` (R146). -/
def execSneReg (x y : RegIx) (s : State) : Host.Outcome State Fault Refusal := .next (s.skipIf (s.getV x != s.getV y))

/-- `Bnnn` (R147): no mask. -/
def execJpV0 (nnn : Addr12) (s : State) : Host.Outcome State Fault Refusal :=
  .next (s.setPc (addrOperand nnn + wideOperand (s.getV 0#4)))

end Sys2Proof.Machine
end

