-- ==== Sys2Proof/Machine/Display.lean ====
section
/-! DEFINITION. The framebuffer, clear and draw (spec/44_display.md R210 to R214). -/

namespace Sys2Proof.Machine

/-- `FB[py][px]` (R31). -/
def State.pixel (s : State) (px : Fin 64) (py : Fin 32) : Bool := s.fb[py][px]

/-- `FB[py][px] <- b`. -/
def State.setPixel (s : State) (px : Fin 64) (py : Fin 32) (b : Bool) : State :=
  s.setFb (s.fb.set py ((s.fb[py]).set px b))

/-- A column reduced modulo 64 (R211). -/
def wrapX (c : Nat) : Fin 64 := ⟨c % 64, Nat.mod_lt c (by decide)⟩

/-- A row reduced modulo 32 (R211). -/
def wrapY (r : Nat) : Fin 32 := ⟨r % 32, Nat.mod_lt r (by decide)⟩

/-- One pixel of the draw (R211): the collision test, then the XOR. -/
def State.drawPixel (s : State) (px : Fin 64) (py : Fin 32) (bit : Bool) : State :=
  (if bit && s.pixel px py then s.setV vf 1#8 else s).setPixel px py (s.pixel px py ^^ bit)

/-- The columns from `col` up, `count` of them, of one sprite row (R211): bit 7 of the sprite byte is column 0. -/
def State.drawCols (s : State) (vx : Nat) (py : Fin 32) (b : Byte) (col : Nat) : Nat → State
  | 0 => s
  | count + 1 =>
    (s.drawPixel (wrapX (vx + col)) py (b.getLsbD (7 - col))).drawCols vx py b (col + 1) count

/-- The rows from `row` up, `count` of them (R211); a row whose byte is out of range raises, the rows before it stay
drawn (R262). `opcode` is the word of the drawing instruction. -/
def State.drawRows (s : State) (opcode : Word) (vx vy row : Nat) : Nat → State
  | 0 => s
  | count + 1 =>
    match s.memRead (s.effAddr row) with
    | some b => (s.drawCols vx (wrapY (vy + row)) b 0 8).drawRows opcode vx vy (row + 1) count
    | none => s.raiseExec .memoryOutOfRange opcode (s.effAddr row)

/-- `00E0` (R210): every pixel off; `VF` is not written. -/
def execCls (s : State) : Host.Outcome State Fault Refusal := .next (s.setFb Framebuffer.blank)

/-- `Dxyn` (R211, R213): the coordinates are latched before `VF` is reset. -/
def execDrw (x y : RegIx) (n : Nibble) (s : State) : Host.Outcome State Fault Refusal :=
  .next ((s.setV vf 0#8).drawRows (encode (.drw x y n)) (s.getV x).toNat (s.getV y).toNat 0 n.toNat)

/-- The port `fb` (R214): element `y * 64 + x` is pixel `(x, y)`. -/
def State.fbElement (s : State) (k : Fin 2048) : Bool :=
  s.pixel ⟨k.val % 64, Nat.mod_lt _ (by decide)⟩ ⟨k.val / 64, by omega⟩

end Sys2Proof.Machine
end

