-- ==== Sys2Proof/Machine/IndexMemory.lean ====
section
/-! DEFINITION. Index register, BCD store, register store and load (spec/43_index_memory.md R190 to R195). -/

namespace Sys2Proof.Machine

/-- `Annn` (R190). -/
def execLdI (nnn : Addr12) (s : State) : Host.Outcome State Fault Refusal := .next (s.setIndex (addrOperand nnn))

/-- `Fx1E` (R191): modulo 65536, no flag, no fault. -/
def execAddI (x : RegIx) (s : State) : Host.Outcome State Fault Refusal :=
  .next (s.setIndex (s.index + wideOperand (s.getV x)))

/-- `Fx29` (R192): only the low nibble of `Vx` counts. -/
def execLdF (x : RegIx) (s : State) : Host.Outcome State Fault Refusal :=
  .next (s.setIndex (BitVec.ofNat 16 ((s.getV x).toNat % 16 * glyphStride)))

/-- `Fx33` (R193): hundreds, tens, units at `I`, `I + 1`, `I + 2`. -/
def execLdB (x : RegIx) (s : State) : Host.Outcome State Fault Refusal :=
  .next (s.storeSeq (encode (.ldB x)) (s.effAddr 0) (bcdDigits (s.getV x)))

/-- `Fx55` (R194): `V0` to `Vx` at `I` up; `I` is unchanged. -/
def execStoreRegs (x : RegIx) (s : State) : Host.Outcome State Fault Refusal :=
  .next (s.storeSeq (encode (.storeRegs x)) (s.effAddr 0) (s.regList x))

/-- `Fx65` (R195): `V0` to `Vx` from `I` up; `I` is unchanged. -/
def execLoadRegs (x : RegIx) (s : State) : Host.Outcome State Fault Refusal :=
  .next (s.loadSeq (encode (.loadRegs x)) (s.effAddr 0) 0 (regCount x))

end Sys2Proof.Machine
end

