-- ==== Sys2Proof/Machine/KeysTimers.lean ====
section
/-! DEFINITION. Key and timer instructions (spec/45_keys_timers.md R230 to R236). -/

namespace Sys2Proof.Machine

/-- `wait_key()` and the write of its result (R233): an event the host delivers during this step completes the wait;
without one the engine waits, `key_wait` raised, and nothing else changes. The same operation goes on with a wait that an
earlier step began (log entry 7). -/
def State.waitKey (s : State) (x : RegIx) : State :=
  match s.ports.keyEvent with
  | some k => (s.setKeyWait none).setV x (k.setWidth 8)
  | none => s.setKeyWait (some x)

/-- `Ex9E` (R230, R269). -/
def execSkp (x : RegIx) (s : State) : Host.Outcome State Fault Refusal :=
  match keyOperand (s.getV x) with
  | some k => .next (s.skipIf (s.held k))
  | none => .next (s.raiseExec .invalidKeyIndex (encode (.skp x)) (s.getV x).toNat)

/-- `ExA1` (R231, R269). -/
def execSknp (x : RegIx) (s : State) : Host.Outcome State Fault Refusal :=
  match keyOperand (s.getV x) with
  | some k => .next (s.skipIf (!s.held k))
  | none => .next (s.raiseExec .invalidKeyIndex (encode (.sknp x)) (s.getV x).toNat)

/-- `Fx07` (R232). -/
def execLdVxDT (x : RegIx) (s : State) : Host.Outcome State Fault Refusal := .next (s.setV x s.dt)

/-- `Fx0A` (R233). -/
def execLdVxK (x : RegIx) (s : State) : Host.Outcome State Fault Refusal := .next (s.waitKey x)

/-- `Fx15` (R234): `DT_LAST` is not written. -/
def execLdDTVx (x : RegIx) (s : State) : Host.Outcome State Fault Refusal := .next (s.setDt (s.getV x))

/-- `Fx18` (R235): `ST_LAST` is not written and no `sound_trigger` is emitted. -/
def execLdSTVx (x : RegIx) (s : State) : Host.Outcome State Fault Refusal := .next (s.setSt (s.getV x))

end Sys2Proof.Machine
end

