-- ==== Sys2Proof/Machine/Random.lean ====
section
/-! DEFINITION. The random byte instruction and the random source (spec/46_random.md R250 to R252). -/

namespace Sys2Proof.Machine

/-- The source after one draw: `RNG <- rng_next(RNG)` (R251). -/
def State.advanceRng (s : State) : State := (s.setRng (Config.rngNext s.rng)).countDraw

/-- The byte of the next draw (R252, log entry 6): the step's input `draw`, whatever `RNG` holds; with none named, a free
value of this draw alone. -/
def State.drawnByte (s : State) : Byte :=
  match s.ports.draw with
  | some b => b
  | none => Config.freeDraw s.draws

/-- What `draw_byte()` of R251 answers for one generator, `rng_byte` of the advanced `RNG`: the value of the input `draw`
under which the machine has that generator. -/
def State.generatorByte (s : State) : Byte := Config.rngByte (Config.rngNext s.rng)

/-- `Cxnn` (R250): one draw, also with `nn = 0`. -/
def execRnd (x : RegIx) (nn : Byte) (s : State) : Host.Outcome State Fault Refusal :=
  .next (s.advanceRng.setV x (s.drawnByte &&& nn))

end Sys2Proof.Machine
end

