-- ==== Sys2Proof/Machine/Timers.lean ====
section
/-! DEFINITION. The timer subsystem (spec/60_exceptions.md R270 to R275): the timer check of a step
(spec/40_step_cycle.md R121). -/

namespace Sys2Proof.Machine

/-- `elapsed <- now - T_LAST`, as an integer (R272). -/
def elapsed (now last : Time) : Int := (now.toNat : Int) - (last.toNat : Int)

/-- The timer has a decrement event: it is not 0 and strictly more than one tick has elapsed (R272). -/
def decrementEvent (tickUs : Nat) (t : Byte) (last now : Time) : Bool :=
  t != 0#8 && decide ((tickUs : Int) < elapsed now last)

/-- `ticks <- elapsed / TICK_US` (R272), used only where `elapsed` is positive. -/
def ticksElapsed (tickUs : Nat) (last now : Time) : Nat := (elapsed now last).toNat / tickUs

/-- `T - min(T, ticks)` (R272). -/
def lowered (t : Byte) (ticks : Nat) : Byte := BitVec.ofNat 8 (t.toNat - min t.toNat ticks)

/-- `timer_decay(DT, DT_LAST, now)` (R272). -/
def State.decayDT (s : State) (now : Time) : State :=
  if decrementEvent s.cfg.tickUs s.dt s.dtLast now then
    (s.setDt (lowered s.dt (ticksElapsed s.cfg.tickUs s.dtLast now))).setDtLast now
  else s

/-- `timer_decay(ST, ST_LAST, now)` (R272), with one `sound_trigger` for a decrement event (R275). -/
def State.decayST (s : State) (now : Time) : State :=
  if decrementEvent s.cfg.tickUs s.st s.stLast now then
    ((s.setSt (lowered s.st (ticksElapsed s.cfg.tickUs s.stLast now))).setStLast now).emitSound
  else s

/-- The timer check (R121): one sample of `TIME`, `DT` first and then `ST`. -/
def State.timerCheck (s : State) : State := (s.decayDT s.ports.time).decayST s.ports.time

end Sys2Proof.Machine
end

