-- ==== Sys2Proof/Machine/Cycle.lean ====
section
/-! DEFINITION. The step cycle (spec/40_step_cycle.md R120 to R126): timer check, fetch, advance, decode, execute. -/

namespace Sys2Proof.Machine

/-- Phase 1 (R121): the timer check. A step request also closes the window for `load` (R318). -/
def State.beginStep (s : State) : State := s.closeLoad.timerCheck

/-- Phases 3 to 5 (R123 to R125) with the fetched word; `s` is the state after phases 1 and 2. -/
def runWord (s : State) (w : Word) : Host.Outcome State Fault Refusal :=
  match decodeWord w with
  | .ok i => exec i s.advance
  | .error _ => .next (s.advance.raise .invalidInstruction s.pc w 0)

/-- Phases 2 to 5; `s` is the state after phase 1. A fetch fault records opcode 0 and leaves `PC` (R122). -/
def fetchAndRun (s : State) : Host.Outcome State Fault Refusal :=
  match s.fetch with
  | .ok w => runWord s w
  | .error ea => .next (s.raise .memoryOutOfRange s.pc 0#16 ea)

/-- One step. A halted engine does nothing (R267); an engine inside an `Fx0A` goes on waiting, with no timer check and no
fetch (R233); otherwise the five phases run (R126). -/
def cycle (s : State) : Host.Outcome State Fault Refusal :=
  match s.fault with
  | some _ => .next s
  | none =>
    match s.keyWait with
    | some x => .next (s.waitKey x)
    | none => fetchAndRun s.beginStep

end Sys2Proof.Machine
end

