-- ==== Sys2Proof/Machine/Step.lean ====
section
/-! DEFINITION. The step (its phases are in Machine/Cycle.lean), and the placing of an instruction where it fetches. -/

namespace Sys2Proof.Machine

/-- One `step` request of the host with the inputs of `s.ports` (spec/40_step_cycle.md R120, R126). -/
def step (s : State) : Host.Outcome State Fault Refusal := cycle s

/-- The state whose next step fetches and runs the instruction word `w` (log entry 9). -/
def State.withFetchWord (s : State) (nbits w : Nat) : State := s.readyToFetch.placeWord (tableWord nbits w)

end Sys2Proof.Machine
end

