-- ==== Sys2Proof/Machine/HostPort.lean ====
section
/-! DEFINITION. What the host can do to the block and read from it (spec/00_scope.md R8; spec/70_reset_and_hazards.md
R310 to R318, R334): reset, load, step, and the outputs computed from the state. -/

namespace Sys2Proof.Machine

/-- `reset` (R310, R41): every piece of state at its reset value, `TIME` sampled once into both timestamps, no
`sound_trigger`. The parameters and the other inputs are not the block's and stay, and so does the model's own count of
draws, so that no draw repeats after a reset (R252, log entry 6). -/
def State.resetAt (s : State) (time : Time) : State where
  v := Vector.replicate 16 0#8
  index := 0#16
  pc := 0x200#16
  stack := s.cfg.stackAtReset
  sp := 0
  dt := 0#8
  st := 0#8
  dtLast := time
  stLast := time
  mem := Memory.writeBytes [] 0 s.cfg.font.toList
  fb := Framebuffer.blank
  rng := s.cfg.rngSeed
  fault := none
  keyWait := none
  soundTriggers := 0
  loadOpen := true
  draws := s.draws
  ports := { s.ports with time := time }
  cfg := s.cfg

/-- The result of a `load` request (R316, R317). -/
inductive LoadResult where
  | loaded
  | rejected
  deriving DecidableEq, Repr

/-- R316, R317: an image of at most 3584 bytes is loaded, a longer one is rejected. -/
def loadResult (image : List Byte) : LoadResult := if image.length ≤ maxImage then .loaded else .rejected

/-- `load(image)` in its window (R316, R317): the image at 0x200 and nothing else, or memory untouched. Either way the
window closes (log entry 8). -/
def State.load (s : State) (image : List Byte) : State :=
  match loadResult image with
  | .loaded => (s.setMem (s.mem.writeBytes progBase image)).closeLoad
  | .rejected => s.closeLoad

/-- A request of the host (R8, R334). -/
inductive HostAction where
  /-- `reset`, with the value of `TIME` it samples. -/
  | reset (time : Time)
  /-- `load(image)`. -/
  | load (image : List Byte)
  /-- `step`, with the inputs the host presents during it. -/
  | step (inputs : Ports)
  deriving DecidableEq, Repr

/-- What a request does. A `load` outside its window has no meaning (R318). -/
def perform (a : HostAction) (s : State) : Host.Outcome State Fault Refusal :=
  match a with
  | .reset time => .next (s.resetAt time)
  | .load image => if s.loadOpen then .next (s.load image) else .refused .loadOutsideWindow
  | .step inputs => step (s.setPorts inputs)

/-- A sequence of requests, to the first that has no next state. -/
def performAll : List HostAction → State → Host.Outcome State Fault Refusal
  | [], s => .next s
  | a :: rest, s =>
    match perform a s with
    | .next t => performAll rest t
    | .fault f => .fault f
    | .refused r => .refused r

/-! ## Outputs -/

/-- The port `step_result` (R8): `ok` or `fault`. -/
inductive StepResult where
  | ok
  | fault
  deriving DecidableEq, Repr

/-- `step_result` after a step (R8, R260, R267): none while the step waits for a key, `fault` when the record is set. -/
def State.stepResult (s : State) : Option StepResult :=
  match s.fault with
  | some _ => some .fault
  | none => if s.keyWait.isSome then none else some .ok

/-- The port `key_wait` (R8, R33). -/
def State.keyWaitPort (s : State) : Bool := s.keyWait.isSome

end Sys2Proof.Machine
end

