-- ==== Sys2Proof/Safety.lean ====
section
/-! DEFINITION. The terms claims are stated in: which instruction a step runs, the sprite a draw composes, what each
instruction may change and raise (spec/10_state.md R21 to R31; spec/60_exceptions.md R261), the legal states, and the
states a host can bring the block to. -/

namespace Sys2Proof.Machine

/-! ## What a step runs -/

/-- The engine is neither halted (R267) nor inside an `Fx0A` (R233). -/
def State.running (s : State) : Prop := s.fault = none ∧ s.keyWait = none

/-- The instruction a step of `s` runs: none when the engine does not run, cannot fetch, or fetches an invalid word. -/
def State.nextInstr (s : State) : Option Instr :=
  match s.fault, s.keyWait, s.fetch with
  | none, none, .ok w => (decodeWord w).toOption
  | _, _, _ => none

/-! ## The sprite of a draw (R211) -/

/-- Bit `7 - col` of the sprite byte of row `row`: the sprite's pixel in column `col`, the most significant bit first. -/
def State.spriteBit (s : State) (row col : Nat) : Bool := (s.mem.read (s.effAddr row)).getLsbD (7 - col)

/-- The pixel is a target of a draw of `n` rows at `(vx, vy)`: some row and column of the sprite lands on it. -/
def drawTarget (vx vy n : Nat) (px : Fin 64) (py : Fin 32) : Prop :=
  ∃ row col, row < n ∧ col < 8 ∧ px = wrapX (vx + col) ∧ py = wrapY (vy + row)

/-- Some target pixel is on where the sprite bit is 1, among the first `n` rows (R211). -/
def State.collision (s : State) (vx vy n : Nat) : Prop :=
  ∃ row col, row < n ∧ col < 8 ∧ s.spriteBit row col = true ∧ s.pixel (wrapX (vx + col)) (wrapY (vy + row)) = true

end Sys2Proof.Machine

/-! ## What an instruction may change -/

namespace Sys2Proof

open Sys2Proof.Machine (vf regCount Fault)

/-- The general registers an instruction may write: its destination, the registers `V0` to `Vx` of `Fx65`, and `VF` for
the six flag writers of R21. -/
def Instr.writesReg : Instr → RegIx → Bool
  | .ldImm x _, r | .addImm x _, r | .ldReg x _, r | .orReg x _, r | .andReg x _, r | .xorReg x _, r
  | .rnd x _, r | .ldVxDT x, r | .ldVxK x, r => r == x
  | .addReg x _, r | .subReg x _, r | .shrReg x _, r | .subnReg x _, r | .shlReg x _, r => r == x || r == vf
  | .drw _ _ _, r => r == vf
  | .loadRegs x, r => decide (r.toNat ≤ x.toNat)
  | .cls, _ | .ret, _ | .jp _, _ | .call _, _ | .seImm _ _, _ | .sneImm _ _, _ | .seReg _ _, _ | .sneReg _ _, _
  | .ldI _, _ | .jpV0 _, _ | .skp _, _ | .sknp _, _ | .ldDTVx _, _ | .ldSTVx _, _ | .addI _, _ | .ldF _, _
  | .ldB _, _ | .storeRegs _, _ => false

/-- The writers of `I` (R22): `Annn`, `Fx1E`, `Fx29`. -/
def Instr.writesIndex : Instr → Bool
  | .ldI _ | .addI _ | .ldF _ => true
  | _ => false

/-- The writers of `PC` beyond the fetch advance (R24). -/
def Instr.writesPc : Instr → Bool
  | .ret | .jp _ | .call _ | .jpV0 _ | .seImm _ _ | .sneImm _ _ | .seReg _ _ | .sneReg _ _ | .skp _ | .sknp _ => true
  | _ => false

/-- The instructions that touch the call stack (R26): `2nnn` and `00EE`. -/
def Instr.usesStack : Instr → Bool
  | .ret | .call _ => true
  | _ => false

/-- The writers of the framebuffer (R31): `00E0` and `Dxyn`. -/
def Instr.writesFb : Instr → Bool
  | .cls | .drw _ _ _ => true
  | _ => false

/-- How many bytes an instruction stores from address `I` up (R193, R194). -/
def Instr.storeLength : Instr → Nat
  | .ldB _ => 3
  | .storeRegs x => regCount x
  | _ => 0

/-- The fault causes an instruction can raise in its execute phase (R261, R278). -/
def Instr.mayRaise : Instr → Fault → Bool
  | .ret, .stackUnderflow => true
  | .call _, .stackOverflow => true
  | .skp _, .invalidKeyIndex | .sknp _, .invalidKeyIndex => true
  | .drw _ _ _, .memoryOutOfRange | .ldB _, .memoryOutOfRange
  | .storeRegs _, .memoryOutOfRange | .loadRegs _, .memoryOutOfRange => true
  | _, _ => false

end Sys2Proof

/-! ## Legal states -/

namespace Sys2Proof.Machine

/-- The encodings that R261 lets raise MemoryOutOfRange in the execute phase: `Dxyn`, `Fx33`, `Fx55`, `Fx65`. -/
def accessesMemory (w : Word) : Prop :=
  opOf w = 0xD ∨ (opOf w = 0xF ∧ (nnOf w = 0x33#8 ∨ nnOf w = 0x55#8 ∨ nnOf w = 0x65#8))

/-- What R261 says a record holds, beside the `PC` that the fault leaves (R262). -/
def FaultRecord.legal (r : FaultRecord) (pc : Word) : Prop :=
  match r.cause with
  | .invalidInstruction => wordLegal r.opcode = false ∧ r.ea = 0 ∧ pc = r.pc + 2#16
  | .memoryOutOfRange =>
    4096 ≤ r.ea.toNat ∧ r.ea.toNat ≤ 0x1000E ∧
      ((r.opcode = 0 ∧ pc = r.pc) ∨ (accessesMemory r.opcode ∧ pc = r.pc + 2#16))
  | .stackOverflow => opOf r.opcode = 2 ∧ r.ea = 0 ∧ pc = r.pc + 2#16
  | .stackUnderflow => r.opcode = 0x00EE#16 ∧ r.ea = 0 ∧ pc = r.pc + 2#16
  | .invalidKeyIndex =>
    (nnOf r.opcode = 0x9E#8 ∨ nnOf r.opcode = 0xA1#8) ∧ opOf r.opcode = 0xE ∧
      16 ≤ r.ea.toNat ∧ r.ea.toNat ≤ 255 ∧ pc = r.pc + 2#16

/-- The states the block can be in: memory in its canonical form, `PC` and the live return addresses within what R25
says they can reach, a fault record as R261 has it, never halted and waiting for a key at once, and the `load` window
open only in an engine that has not stepped. -/
structure State.Inv (s : State) : Prop where
  memory : s.mem.wf
  pcReach : s.pc.toNat ≤ 0x10FE
  stackReach : ∀ k : Fin 16, k.val < s.sp.val → (s.stack[k]).toNat ≤ 0x1000
  faultLegal : ∀ r, s.fault = some r → r.legal s.pc ∧ s.keyWait = none
  loadWindow : s.loadOpen = true → s.fault = none ∧ s.keyWait = none

/-- The states a host can bring the block to: a reset from anything, then any requests with next states. -/
inductive Reachable : State → Prop where
  | afterReset (s : State) (time : Time) : Reachable (s.resetAt time)
  | afterRequest (s t : State) (a : HostAction) : Reachable s → perform a s = .next t → Reachable t

end Sys2Proof.Machine
end

