-- ==== Sys2Proof/Certificates/Slice0/Obligations.lean ====
section
/-! DEFINITION. The statements for the provers. Each formalises rules of spec/ or a property of the model; its docstring
names them. `exec` runs in the execute phase, so `s.pc` there is the instruction's address plus 2 (R123). -/

open Sys2Proof Sys2Proof.Machine

/-! ## Encoding (30_encoding.md) -/

/-- Decoding the word, or the bytes, of any instruction gives it back with every operand (R91, R94, R95). -/
def Obligations.DecodeInvertsEncode : Prop :=
  ∀ (i : Instr) (rest : List Byte), i.wellFormed = true ∧ decodeWord (encode i) = .ok i ∧
    decodeBytes (encodeBytes i ++ rest) = .ok (i, rest)

/-- A word that decodes is the word of the instruction it decodes to: no bit of a legal word is dropped (R91, R94). -/
def Obligations.EncodeInvertsDecode : Prop :=
  ∀ (w : Word) (i : Instr), decodeWord w = .ok i → encode i = w

/-- A word decodes to the instruction of a row exactly when the row's match and mask apply to it, and it decodes at all
exactly when some row applies (R94, R95): the nibble dispatch of R94 agrees with the opcode map of R95. -/
def Obligations.DecodeAgreesWithTheOpcodeMap : Prop :=
  ∀ w : Word,
    (∀ j : Instr, j.row.applies w = true ↔ ∃ i, decodeWord w = .ok i ∧ i.row = j.row) ∧
    (wordLegal w = true ↔ ∃ i, decodeWord w = .ok i)

/-- The invalid words are exactly those that R96 lists for the families 0, 5, 8, 9, E and F. -/
def Obligations.InvalidWordsAreThoseOfSixFamilies : Prop :=
  ∀ w : Word,
    (∃ r, decodeWord w = .error r) ↔
      (opOf w = 0x0 ∧ w ≠ 0x00E0 ∧ w ≠ 0x00EE) ∨
      (opOf w = 0x5 ∧ nOf w ≠ 0) ∨
      (opOf w = 0x8 ∧ (8 ≤ (nOf w).toNat ∧ nOf w ≠ 0xE)) ∨
      (opOf w = 0x9 ∧ nOf w ≠ 0) ∨
      (opOf w = 0xE ∧ nnOf w ≠ 0x9E ∧ nnOf w ≠ 0xA1) ∨
      (opOf w = 0xF ∧ nnOf w ≠ 0x07 ∧ nnOf w ≠ 0x0A ∧ nnOf w ≠ 0x15 ∧ nnOf w ≠ 0x18 ∧ nnOf w ≠ 0x1E ∧
        nnOf w ≠ 0x29 ∧ nnOf w ≠ 0x33 ∧ nnOf w ≠ 0x55 ∧ nnOf w ≠ 0x65)

/-- The words of R98 decode as R98 says (a sanity check on a few words). -/
def Obligations.SampleWordsDecodeAsListed : Prop :=
  decodeWord 0x8009 = .error .invalidFamily8 ∧ decodeWord 0xD125 = .ok (.drw 1 2 5) ∧
  decodeWord 0x6A3C = .ok (.ldImm 10 0x3C) ∧ decodeWord 0x2300 = .ok (.call 0x300) ∧
  decodeWord 0xF065 = .ok (.loadRegs 0) ∧ decodeWord 0xFF65 = .ok (.loadRegs 15) ∧
  decodeWord 0xE19E = .ok (.skp 1) ∧ decodeWord 0xE19F = .error .invalidFamilyE

/-! ## The step (40_step_cycle.md) -/

/-- A step of a running engine whose fetched word decodes to `i` is the timer check, `PC + 2`, then `exec i`
(R120, R126). `beginStep` is the timer check after the `load` window is closed. -/
def Obligations.StepRunsTheDecodedInstruction : Prop :=
  ∀ (s : State) (w : Word) (i : Instr), s.running → s.fetch = .ok w → decodeWord w = .ok i →
    step s = exec i (s.beginStep.setPc (s.pc + 2)) ∧ s.beginStep = s.closeLoad.timerCheck

/-- The fetch is big-endian and bounds-checked byte by byte, high byte first (R64). -/
def Obligations.FetchIsBigEndianAndBoundsChecked : Prop :=
  ∀ s : State,
    (s.pc.toNat ≤ 0xFFE → ∃ w, s.fetch = .ok w ∧
      w.toNat = (s.mem.read s.pc.toNat).toNat * 256 + (s.mem.read (s.pc.toNat + 1)).toNat) ∧
    (s.pc.toNat = 0xFFF → s.fetch = .error 0x1000) ∧
    (0x1000 ≤ s.pc.toNat → s.fetch = .error s.pc.toNat)

/-- A fetch above 0xFFE ends the step with `MemoryOutOfRange`: `PC` is not advanced, the record has opcode 0 and the byte
address, and the timer check is the only effect (R122). -/
def Obligations.FetchFaultLeavesPcAndRecordsTheAddress : Prop :=
  ∀ s : State, s.running → 0xFFE < s.pc.toNat →
    ∃ t, step s = .next t ∧ t.pc = s.pc ∧
      t.fault = some { cause := .memoryOutOfRange, pc := s.pc, opcode := 0,
                       ea := if s.pc = 0xFFF then 0x1000 else s.pc.setWidth 17 } ∧
      t = { s.beginStep with fault := t.fault }

/-- An invalid word ends the step with `InvalidInstruction`, recording the fetch address and the word, with `PC` already
advanced and no execute effect (R124, R263). -/
def Obligations.InvalidWordFaultsAfterTheAdvance : Prop :=
  ∀ (s : State) (w : Word), s.running → s.fetch = .ok w → wordLegal w = false →
    ∃ t, step s = .next t ∧ t.pc = s.pc + 2 ∧
      t.fault = some { cause := .invalidInstruction, pc := s.pc, opcode := w, ea := 0 } ∧
      t = { s.beginStep with pc := t.pc, fault := t.fault }

/-- A step of a halted engine changes no state at all and reports the same record; only a reset clears it (R267). -/
def Obligations.HaltedEngineChangesNothingUntilReset : Prop :=
  ∀ (s : State) (r : FaultRecord), s.fault = some r →
    step s = .next s ∧ s.stepResult = some .fault ∧
    ∀ (a : HostAction) (t : State), perform a s = .next t →
      t.fault = some r ∨ ∃ time, a = .reset time ∧ t.fault = none

/-- While a step waits for a key nothing changes without an event, no timer check runs, and an event completes it with
`Vx` holding the code (R233). -/
def Obligations.WaitingStepEndsOnlyWithAKeyEvent : Prop :=
  ∀ (s : State) (x : RegIx), s.fault = none → s.keyWait = some x →
    (s.ports.keyEvent = none → step s = .next s) ∧
    (∀ k, s.ports.keyEvent = some k →
      ∃ t, step s = .next t ∧ (t.getV x).toNat = k.toNat ∧ t.keyWait = none ∧
        (∀ r, r ≠ x → t.getV r = s.getV r) ∧ t = { s with v := t.v, keyWait := none })

/-- Every step of every state answers a next state: no step is refused and none stops the machine outside the fault
record (R126: a step returns a state with `ok` or `fault`; log entry 1). -/
def Obligations.EveryStepAnswersANextState : Prop :=
  ∀ s : State, ∃ t, step s = .next t

/-- The record a step leaves has the fetch address as `pc`; a fetch fault has opcode 0 and the address the fetch could
not read; otherwise the opcode is the fetched word, the cause is `InvalidInstruction` exactly when that word is no
instruction, and else one the instruction can raise (R261). -/
def Obligations.StepFaultRecordNamesTheFetchedWord : Prop :=
  ∀ (s t : State) (r : FaultRecord), s.running → step s = .next t → t.fault = some r →
    r.pc = s.pc ∧
    (∀ e, s.fetch = .error e → r.cause = .memoryOutOfRange ∧ r.opcode = 0 ∧ r.ea = BitVec.ofNat 17 e) ∧
    (∀ w, s.fetch = .ok w → r.opcode = w ∧ (r.cause = .invalidInstruction ↔ wordLegal w = false) ∧
      ∀ i, decodeWord w = .ok i → i.mayRaise r.cause = true)

/-- A store is seen by the very next fetch: registers stored over the bytes at `PC` are the word fetched there (R74). A
word is two bytes, so at least `V0` and `V1` are stored. -/
def Obligations.StoreIsSeenByTheNextFetch : Prop :=
  ∀ (s t : State) (x : RegIx), s.mem.wf → 1 ≤ x.toNat → s.index = s.pc → s.index.toNat + x.toNat < 4096 →
    exec (.storeRegs x) s = .next t →
    ∃ w, t.fetch = .ok w ∧ w.toNat = (s.getV 0).toNat * 256 + (s.getV 1).toNat

/-- The step of a state in which an instruction's word was placed where the next step fetches runs exactly that
instruction (the model's `withFetchWord`, log entry 9). -/
def Obligations.PlacedWordIsTheOneTheStepRuns : Prop :=
  ∀ (s : State) (i : Instr), s.mem.wf →
    step (s.withFetchWord 16 (encode i).toNat) =
      exec i ((s.withFetchWord 16 (encode i).toNat).beginStep.advance)

/-! ## Memory (20_memory.md) -/

/-- A byte write inside the space changes that byte and no other; a read returns the latest write; an access at 4096 or
more is not made (R62, R63, R65, R71 (c)). -/
def Obligations.ByteWriteChangesThatByteAlone : Prop :=
  ∀ (s : State) (a : Nat) (b : Byte), s.mem.wf →
    (a < 4096 → ∃ t, s.memWrite a b = some t ∧ t.memRead a = some b ∧ t.mem.wf ∧
      (∀ k, k ≠ a → t.memRead k = s.memRead k) ∧ t = { s with mem := t.mem }) ∧
    (4096 ≤ a → s.memWrite a b = none ∧ s.memRead a = none)

/-! ## Timers (60_exceptions.md) -/

/-- The decay rule for both timers, with `TIME` as `now`: a decrement event happens exactly when the timer is not 0 and
strictly more than `TICK_US` has elapsed; it takes `floor(elapsed / TICK_US)` off, clamped at 0 and at least 1, and moves
the timestamp to `now`; an event of `ST` emits one trigger, which the model counts (log entry 10); otherwise nothing is
written (R272). -/
def Obligations.TimerCheckFollowsTheDecayRule : Prop :=
  ∀ s : State, s.cfg.wf →
    let now : Int := s.ports.time.toNat
    let p : Int := s.cfg.tickUs
    let dtElapsed : Int := now - s.dtLast.toNat
    let stElapsed : Int := now - s.stLast.toNat
    let t := s.timerCheck
    (dtElapsed > p ∧ s.dt ≠ 0 →
      (t.dt.toNat : Int) = s.dt.toNat - min (s.dt.toNat : Int) (dtElapsed / p) ∧ 1 ≤ dtElapsed / p ∧
        t.dtLast = s.ports.time) ∧
    (¬ (dtElapsed > p ∧ s.dt ≠ 0) → t.dt = s.dt ∧ t.dtLast = s.dtLast) ∧
    (stElapsed > p ∧ s.st ≠ 0 →
      (t.st.toNat : Int) = s.st.toNat - min (s.st.toNat : Int) (stElapsed / p) ∧ 1 ≤ stElapsed / p ∧
        t.stLast = s.ports.time ∧ t.soundTriggers = s.soundTriggers + 1) ∧
    (¬ (stElapsed > p ∧ s.st ≠ 0) → t.st = s.st ∧ t.stLast = s.stLast ∧ t.soundTriggers = s.soundTriggers) ∧
    t = { s with dt := t.dt, dtLast := t.dtLast, st := t.st, stLast := t.stLast, soundTriggers := t.soundTriggers }

/-- The timer check of a running step is committed whatever the instruction then does, a fault included: timestamps and
triggers are those of the check, and so is each timer unless the instruction writes it (R121, R29, R275). -/
def Obligations.TimerCheckIsCommittedByEveryStep : Prop :=
  ∀ s t : State, s.running → step s = .next t →
    t.dtLast = s.timerCheck.dtLast ∧ t.stLast = s.timerCheck.stLast ∧
    t.soundTriggers = s.timerCheck.soundTriggers ∧
    ((∀ x, s.nextInstr ≠ some (.ldDTVx x)) → t.dt = s.timerCheck.dt) ∧
    ((∀ x, s.nextInstr ≠ some (.ldSTVx x)) → t.st = s.timerCheck.st)

/-- Between writes by `Fx15` the delay timer never rises, whatever the host does but reset (R276 (b), R273 (e)). -/
def Obligations.DelayTimerNeverRisesBetweenWrites : Prop :=
  ∀ (s t : State) (a : HostAction), perform a s = .next t →
    (∀ inputs x, a = .step inputs → s.nextInstr ≠ some (.ldDTVx x)) → (∀ time, a ≠ .reset time) →
    t.dt.toNat ≤ s.dt.toNat

/-! ## Register load, arithmetic, logic, shift (42_alu.md) -/

/-- `6xnn` and `7xnn` (R160, R161): encoding, result modulo 256, no flag, no fault, nothing else. -/
def Obligations.ImmediateLoadAndAddWriteVxOnly : Prop :=
  ∀ (x : RegIx) (nn : Byte) (s : State),
    (encode (.ldImm x nn)).toNat = 0x6000 + x.toNat * 256 + nn.toNat ∧
    (encode (.addImm x nn)).toNat = 0x7000 + x.toNat * 256 + nn.toNat ∧
    (∃ t, exec (.ldImm x nn) s = .next t ∧ t.getV x = nn ∧ (∀ r, r ≠ x → t.getV r = s.getV r) ∧
      t = { s with v := t.v }) ∧
    (∃ t, exec (.addImm x nn) s = .next t ∧ (t.getV x).toNat = ((s.getV x).toNat + nn.toNat) % 256 ∧
      (∀ r, r ≠ x → t.getV r = s.getV r) ∧ t = { s with v := t.v })

/-- `8xy0` to `8xy3` (R162 to R165): encoding, copy, or, and, exclusive or bit by bit, `VF` not written, nothing else. -/
def Obligations.CopyAndLogicWriteVxOnly : Prop :=
  ∀ (x y : RegIx) (s : State),
    (encode (.ldReg x y)).toNat = 0x8000 + x.toNat * 256 + y.toNat * 16 ∧
    (encode (.orReg x y)).toNat = 0x8001 + x.toNat * 256 + y.toNat * 16 ∧
    (encode (.andReg x y)).toNat = 0x8002 + x.toNat * 256 + y.toNat * 16 ∧
    (encode (.xorReg x y)).toNat = 0x8003 + x.toNat * 256 + y.toNat * 16 ∧
    (∃ t, exec (.ldReg x y) s = .next t ∧ t.getV x = s.getV y ∧
      (∀ r, r ≠ x → t.getV r = s.getV r) ∧ t = { s with v := t.v }) ∧
    (∃ t, exec (.orReg x y) s = .next t ∧
      (∀ b, (t.getV x).getLsbD b = ((s.getV x).getLsbD b || (s.getV y).getLsbD b)) ∧
      (∀ r, r ≠ x → t.getV r = s.getV r) ∧ t = { s with v := t.v }) ∧
    (∃ t, exec (.andReg x y) s = .next t ∧
      (∀ b, (t.getV x).getLsbD b = ((s.getV x).getLsbD b && (s.getV y).getLsbD b)) ∧
      (∀ r, r ≠ x → t.getV r = s.getV r) ∧ t = { s with v := t.v }) ∧
    (∃ t, exec (.xorReg x y) s = .next t ∧
      (∀ b, (t.getV x).getLsbD b = ((s.getV x).getLsbD b ^^ (s.getV y).getLsbD b)) ∧
      (∀ r, r ≠ x → t.getV r = s.getV r) ∧ t = { s with v := t.v })

/-- `8xy4` (R166): encoding, sum modulo 256, `VF` the carry and written last, so that for `x = F` the flag stays. -/
def Obligations.AddSetsCarryInVF : Prop :=
  ∀ (x y : RegIx) (s : State),
    (encode (.addReg x y)).toNat = 0x8004 + x.toNat * 256 + y.toNat * 16 ∧
    ∃ t, exec (.addReg x y) s = .next t ∧
      (x ≠ vf → (t.getV x).toNat = ((s.getV x).toNat + (s.getV y).toNat) % 256) ∧
      (t.getV vf).toNat = (if (s.getV x).toNat + (s.getV y).toNat > 255 then 1 else 0) ∧
      (∀ r, r ≠ x → r ≠ vf → t.getV r = s.getV r) ∧ t = { s with v := t.v }

/-- `8xy5` and `8xy7` (R167, R169): encoding, difference modulo 256, `VF` 1 exactly when no borrow occurred, by the values
before the subtraction, and written last. -/
def Obligations.SubtractionsSetNotBorrowInVF : Prop :=
  ∀ (x y : RegIx) (s : State),
    (encode (.subReg x y)).toNat = 0x8005 + x.toNat * 256 + y.toNat * 16 ∧
    (encode (.subnReg x y)).toNat = 0x8007 + x.toNat * 256 + y.toNat * 16 ∧
    (∃ t, exec (.subReg x y) s = .next t ∧
      (x ≠ vf → ((t.getV x).toNat : Int) = ((s.getV x).toNat - (s.getV y).toNat : Int) % 256) ∧
      (t.getV vf).toNat = (if (s.getV x).toNat ≥ (s.getV y).toNat then 1 else 0) ∧
      (∀ r, r ≠ x → r ≠ vf → t.getV r = s.getV r) ∧ t = { s with v := t.v }) ∧
    (∃ t, exec (.subnReg x y) s = .next t ∧
      (x ≠ vf → ((t.getV x).toNat : Int) = ((s.getV y).toNat - (s.getV x).toNat : Int) % 256) ∧
      (t.getV vf).toNat = (if (s.getV y).toNat ≥ (s.getV x).toNat then 1 else 0) ∧
      (∀ r, r ≠ x → r ≠ vf → t.getV r = s.getV r) ∧ t = { s with v := t.v })

/-- `8xy6` and `8xyE` (R168, R170): encoding, `Vy` (not `Vx`) shifted by one into `Vx`, `VF` the bit shifted out and
written last. -/
def Obligations.ShiftsReadVyAndReportTheLostBit : Prop :=
  ∀ (x y : RegIx) (s : State),
    (encode (.shrReg x y)).toNat = 0x8006 + x.toNat * 256 + y.toNat * 16 ∧
    (encode (.shlReg x y)).toNat = 0x800E + x.toNat * 256 + y.toNat * 16 ∧
    (∃ t, exec (.shrReg x y) s = .next t ∧
      (x ≠ vf → (t.getV x).toNat = (s.getV y).toNat / 2) ∧ (t.getV vf).toNat = (s.getV y).toNat % 2 ∧
      (∀ r, r ≠ x → r ≠ vf → t.getV r = s.getV r) ∧ t = { s with v := t.v }) ∧
    (∃ t, exec (.shlReg x y) s = .next t ∧
      (x ≠ vf → (t.getV x).toNat = (s.getV y).toNat * 2 % 256) ∧ (t.getV vf).toNat = (s.getV y).toNat / 128 ∧
      (∀ r, r ≠ x → r ≠ vf → t.getV r = s.getV r) ∧ t = { s with v := t.v })

/-! ## Control transfer (41_control_flow.md) -/

/-- `1nnn` and `Bnnn` (R141, R147): encoding, the target unchecked and unmasked, nothing else. -/
def Obligations.JumpsSetPcUnchecked : Prop :=
  ∀ (nnn : Addr12) (s : State),
    (encode (.jp nnn)).toNat = 0x1000 + nnn.toNat ∧ (encode (.jpV0 nnn)).toNat = 0xB000 + nnn.toNat ∧
    (∃ t, exec (.jp nnn) s = .next t ∧ t.pc.toNat = nnn.toNat ∧ t = { s with pc := t.pc }) ∧
    (∃ t, exec (.jpV0 nnn) s = .next t ∧ t.pc.toNat = nnn.toNat + (s.getV 0).toNat ∧ t = { s with pc := t.pc })

/-- `2nnn` (R142, R265): encoding; with room, the address after the instruction becomes the top entry and no other entry
changes; with 16 entries in use, `StackOverflow` and nothing pushed. -/
def Obligations.CallPushesOrOverflows : Prop :=
  ∀ (nnn : Addr12) (s : State),
    (encode (.call nnn)).toNat = 0x2000 + nnn.toNat ∧
    (∀ k : Fin 16, s.sp.val = k.val →
      ∃ t, exec (.call nnn) s = .next t ∧ t.stack[k] = s.pc ∧ t.sp.val = k.val + 1 ∧ t.pc.toNat = nnn.toNat ∧
        (∀ j : Fin 16, j ≠ k → t.stack[j] = s.stack[j]) ∧
        t = { s with pc := t.pc, sp := t.sp, stack := t.stack }) ∧
    (s.sp.val = 16 →
      ∃ t, exec (.call nnn) s = .next t ∧
        t.fault = some { cause := .stackOverflow, pc := s.pc - 2, opcode := encode (.call nnn), ea := 0 } ∧
        t = { s with fault := t.fault })

/-- `00EE` (R140, R266): encoding; with an entry, the top one becomes `PC` and stays in place; with none,
`StackUnderflow` and nothing popped. -/
def Obligations.ReturnPopsOrUnderflows : Prop :=
  ∀ s : State,
    encode .ret = 0x00EE ∧
    (∀ k : Fin 16, s.sp.val = k.val + 1 →
      ∃ t, exec .ret s = .next t ∧ t.pc = s.stack[k] ∧ t.sp.val = k.val ∧ t = { s with pc := t.pc, sp := t.sp }) ∧
    (s.sp.val = 0 →
      ∃ t, exec .ret s = .next t ∧
        t.fault = some { cause := .stackUnderflow, pc := s.pc - 2, opcode := 0x00EE, ea := 0 } ∧
        t = { s with fault := t.fault })

/-- A return from the state a call left, or any with the same stack, goes to the address after the call and restores the
depth (R26, R128, R140, R142). -/
def Obligations.ReturnUndoesCall : Prop :=
  ∀ (nnn : Addr12) (s t u : State), s.sp.val < 16 → exec (.call nnn) s = .next t →
    u.stack = t.stack → u.sp = t.sp →
    ∃ v, exec .ret u = .next v ∧ v.pc = s.pc ∧ v.sp = s.sp

/-- `3xnn`, `4xnn`, `5xy0`, `9xy0` (R143 to R146): encoding; `PC` moves by exactly 2 more when the condition holds and
not at all otherwise; nothing else. -/
def Obligations.ComparisonSkipsMovePcByTwo : Prop :=
  ∀ (x y : RegIx) (nn : Byte) (s : State),
    (encode (.seImm x nn)).toNat = 0x3000 + x.toNat * 256 + nn.toNat ∧
    (encode (.sneImm x nn)).toNat = 0x4000 + x.toNat * 256 + nn.toNat ∧
    (encode (.seReg x y)).toNat = 0x5000 + x.toNat * 256 + y.toNat * 16 ∧
    (encode (.sneReg x y)).toNat = 0x9000 + x.toNat * 256 + y.toNat * 16 ∧
    (∃ t, exec (.seImm x nn) s = .next t ∧ t.pc = (if s.getV x = nn then s.pc + 2 else s.pc) ∧
      t = { s with pc := t.pc }) ∧
    (∃ t, exec (.sneImm x nn) s = .next t ∧ t.pc = (if s.getV x = nn then s.pc else s.pc + 2) ∧
      t = { s with pc := t.pc }) ∧
    (∃ t, exec (.seReg x y) s = .next t ∧ t.pc = (if s.getV x = s.getV y then s.pc + 2 else s.pc) ∧
      t = { s with pc := t.pc }) ∧
    (∃ t, exec (.sneReg x y) s = .next t ∧ t.pc = (if s.getV x = s.getV y then s.pc else s.pc + 2) ∧
      t = { s with pc := t.pc })

/-! ## Index register and memory (43_index_memory.md) -/

/-- `Annn`, `Fx1E`, `Fx29` (R190 to R192): encoding, the new `I`, no flag, no fault, nothing else. -/
def Obligations.IndexWritesChangeIndexOnly : Prop :=
  ∀ (nnn : Addr12) (x : RegIx) (s : State),
    (encode (.ldI nnn)).toNat = 0xA000 + nnn.toNat ∧ (encode (.addI x)).toNat = 0xF01E + x.toNat * 256 ∧
    (encode (.ldF x)).toNat = 0xF029 + x.toNat * 256 ∧
    (∃ t, exec (.ldI nnn) s = .next t ∧ t.index.toNat = nnn.toNat ∧ t = { s with index := t.index }) ∧
    (∃ t, exec (.addI x) s = .next t ∧ t.index.toNat = (s.index.toNat + (s.getV x).toNat) % 65536 ∧
      t = { s with index := t.index }) ∧
    (∃ t, exec (.ldF x) s = .next t ∧ t.index.toNat = (s.getV x &&& 0xF).toNat * 5 ∧
      t = { s with index := t.index })

/-- `Fx33` with all three addresses in range (R193): encoding, hundreds, tens and units at `I`, `I + 1`, `I + 2`, every
other byte and all other state unchanged. -/
def Obligations.BcdStoresThreeDigits : Prop :=
  ∀ (x : RegIx) (s : State), s.mem.wf →
    (encode (.ldB x)).toNat = 0xF033 + x.toNat * 256 ∧
    (s.effAddr 2 < 4096 →
      ∃ t, exec (.ldB x) s = .next t ∧
        (t.mem.read (s.effAddr 0)).toNat = (s.getV x).toNat / 100 ∧
        (t.mem.read (s.effAddr 1)).toNat = (s.getV x).toNat / 10 % 10 ∧
        (t.mem.read (s.effAddr 2)).toNat = (s.getV x).toNat % 10 ∧
        (∀ a, a < s.effAddr 0 ∨ s.effAddr 0 + 3 ≤ a → t.mem.read a = s.mem.read a) ∧
        t = { s with mem := t.mem })

/-- `Fx55` with all its addresses in range (R194): encoding, `V0` to `Vx` ascending from `I`, every other byte and all
other state, `I` included, unchanged. -/
def Obligations.RegisterStoreWritesV0ToVx : Prop :=
  ∀ (x : RegIx) (s : State), s.mem.wf →
    (encode (.storeRegs x)).toNat = 0xF055 + x.toNat * 256 ∧
    (s.effAddr x.toNat < 4096 →
      ∃ t, exec (.storeRegs x) s = .next t ∧
        (∀ r : RegIx, r.toNat ≤ x.toNat → t.mem.read (s.effAddr r.toNat) = s.getV r) ∧
        (∀ a, a < s.effAddr 0 ∨ s.effAddr 0 + (x.toNat + 1) ≤ a → t.mem.read a = s.mem.read a) ∧
        t = { s with mem := t.mem })

/-- `Fx65` with all its addresses in range (R195): encoding, `V0` to `Vx` ascending from `I`, the registers above `Vx` and
all other state, `I` included, unchanged. -/
def Obligations.RegisterLoadReadsV0ToVx : Prop :=
  ∀ (x : RegIx) (s : State),
    (encode (.loadRegs x)).toNat = 0xF065 + x.toNat * 256 ∧
    (s.effAddr x.toNat < 4096 →
      ∃ t, exec (.loadRegs x) s = .next t ∧
        (∀ r : RegIx, r.toNat ≤ x.toNat → t.getV r = s.mem.read (s.effAddr r.toNat)) ∧
        (∀ r : RegIx, x.toNat < r.toNat → t.getV r = s.getV r) ∧ t = { s with v := t.v })

/-- The two storing instructions past the last address (R262, R264): the bytes before the first address out of range are
stored and nothing else; the record has the first address out of range. -/
def Obligations.StorePastMemoryKeepsTheBytesBefore : Prop :=
  ∀ (i : Instr) (bytes : List Byte) (x : RegIx) (s : State), s.mem.wf →
    (i = .ldB x ∧ bytes = bcdDigits (s.getV x) ∨ i = .storeRegs x ∧ bytes = s.regList x) →
    4096 < s.effAddr 0 + bytes.length →
    ∃ t, exec i s = .next t ∧ bytes.length = i.storeLength ∧
      (∀ k b, bytes[k]? = some b → s.effAddr k < 4096 → t.mem.read (s.effAddr k) = b) ∧
      (∀ a, a < s.effAddr 0 ∨ 4096 ≤ a → t.mem.read a = s.mem.read a) ∧
      t.fault = some { cause := .memoryOutOfRange, pc := s.pc - 2, opcode := encode i,
                       ea := BitVec.ofNat 17 (max (s.effAddr 0) 4096) } ∧
      t = { s with mem := t.mem, fault := t.fault }

/-- `Fx65` past the last address (R262, R264): the registers whose byte is in range are loaded and nothing else; the
record has the first address out of range. -/
def Obligations.LoadPastMemoryKeepsTheRegistersBefore : Prop :=
  ∀ (x : RegIx) (s : State), 4096 ≤ s.effAddr x.toNat →
    ∃ t, exec (.loadRegs x) s = .next t ∧
      (∀ r : RegIx, r.toNat ≤ x.toNat → s.effAddr r.toNat < 4096 → t.getV r = s.mem.read (s.effAddr r.toNat)) ∧
      (∀ r : RegIx, x.toNat < r.toNat ∨ 4096 ≤ s.effAddr r.toNat → t.getV r = s.getV r) ∧
      t.fault = some { cause := .memoryOutOfRange, pc := s.pc - 2, opcode := encode (.loadRegs x),
                       ea := BitVec.ofNat 17 (max (s.effAddr 0) 4096) } ∧
      t = { s with v := t.v, fault := t.fault }

/-- The document's round trip (R195): `Fx55` with `x = F`, then, from any state with that memory and that `I`, `Fx65` with
`x = F`, gives back all sixteen registers. -/
def Obligations.StoreThenLoadRoundTripsAllRegisters : Prop :=
  ∀ s t u : State, s.mem.wf → s.effAddr 15 < 4096 → exec (.storeRegs 15) s = .next t →
    u.mem = t.mem → u.index = s.index →
    ∃ v, exec (.loadRegs 15) u = .next v ∧ v.fault = u.fault ∧ ∀ r, v.getV r = s.getV r

/-! ## Display (44_display.md) -/

/-- `00E0` (R210): encoding, all 2048 pixels off whatever they were, nothing else. -/
def Obligations.ClearTurnsEveryPixelOff : Prop :=
  ∀ s : State, encode .cls = 0x00E0 ∧
    ∃ t, exec .cls s = .next t ∧ (∀ px py, t.pixel px py = false) ∧ (∀ k, t.fbElement k = false) ∧
      t = { s with fb := t.fb }

/-- `Dxyn` with every sprite byte in range (R211, R213): each target pixel, wrapped, is XORed with its sprite bit, every
other pixel stays, `VF` is 1 exactly when a lit pixel met a 1 bit, the coordinates are the values before `VF` is reset. -/
def Obligations.DrawXorsTheSpriteAndReportsCollision : Prop :=
  ∀ (x y : RegIx) (n : Nibble) (s : State),
    (encode (.drw x y n)).toNat = 0xD000 + x.toNat * 256 + y.toNat * 16 + n.toNat ∧
    (n = 0 ∨ s.index.toNat + n.toNat ≤ 4096 →
      ∃ t, exec (.drw x y n) s = .next t ∧
        (∀ row col, row < n.toNat → col < 8 →
          t.pixel (wrapX ((s.getV x).toNat + col)) (wrapY ((s.getV y).toNat + row)) =
            (s.pixel (wrapX ((s.getV x).toNat + col)) (wrapY ((s.getV y).toNat + row)) ^^ s.spriteBit row col)) ∧
        (∀ px py, ¬ drawTarget (s.getV x).toNat (s.getV y).toNat n.toNat px py → t.pixel px py = s.pixel px py) ∧
        (s.collision (s.getV x).toNat (s.getV y).toNat n.toNat → t.getV vf = 1) ∧
        (¬ s.collision (s.getV x).toNat (s.getV y).toNat n.toNat → t.getV vf = 0) ∧
        (∀ r, r ≠ vf → t.getV r = s.getV r) ∧ t = { s with v := t.v, fb := t.fb })

/-- `Dxyn` that runs past the last address (R262, R264): the rows before are drawn and reported in `VF`, no later row is,
and the record has the first address out of range. -/
def Obligations.DrawPastMemoryKeepsTheRowsBefore : Prop :=
  ∀ (x y : RegIx) (n : Nibble) (s : State), n ≠ 0 → 4096 < s.index.toNat + n.toNat →
    ∃ t, exec (.drw x y n) s = .next t ∧
      (∀ row col, s.index.toNat + row < 4096 → col < 8 →
        t.pixel (wrapX ((s.getV x).toNat + col)) (wrapY ((s.getV y).toNat + row)) =
          (s.pixel (wrapX ((s.getV x).toNat + col)) (wrapY ((s.getV y).toNat + row)) ^^ s.spriteBit row col)) ∧
      (∀ px py, ¬ drawTarget (s.getV x).toNat (s.getV y).toNat (4096 - s.index.toNat) px py →
        t.pixel px py = s.pixel px py) ∧
      (s.collision (s.getV x).toNat (s.getV y).toNat (4096 - s.index.toNat) → t.getV vf = 1) ∧
      (¬ s.collision (s.getV x).toNat (s.getV y).toNat (4096 - s.index.toNat) → t.getV vf = 0) ∧
      (∀ r, r ≠ vf → t.getV r = s.getV r) ∧
      t.fault = some { cause := .memoryOutOfRange, pc := s.pc - 2, opcode := encode (.drw x y n),
                       ea := BitVec.ofNat 17 (max s.index.toNat 4096) } ∧
      t = { s with v := t.v, fb := t.fb, fault := t.fault }

/-- Drawing the same sprite twice at the same place restores the framebuffer, and the second draw reports a collision
exactly when a 1 bit of the sprite fell on a pixel that was off at first (R211; R212 (f) in the part that R211 bears out,
log entry 12). With `x = F` or `y = F` the first draw changes a coordinate of the second (R213), so those are left to
`DrawXorsTheSpriteAndReportsCollision`, which holds for every `x` and `y`. -/
def Obligations.DrawingTwiceRestoresTheFramebuffer : Prop :=
  ∀ (x y : RegIx) (n : Nibble) (s t : State), x ≠ vf → y ≠ vf → (n = 0 ∨ s.index.toNat + n.toNat ≤ 4096) →
    exec (.drw x y n) s = .next t →
    ∃ u, exec (.drw x y n) t = .next u ∧ (∀ px py, u.pixel px py = s.pixel px py) ∧
      (u.getV vf = 1 ↔ ∃ row col, row < n.toNat ∧ col < 8 ∧ s.spriteBit row col = true ∧
        s.pixel (wrapX ((s.getV x).toNat + col)) (wrapY ((s.getV y).toNat + row)) = false)

/-! ## Keys, timers, random (45_keys_timers.md, 46_random.md) -/

/-- `Ex9E` and `ExA1` (R230, R231, R269): encoding; the skip by bit `Vx` of `key_held`; `InvalidKeyIndex` recording `Vx`
when it is above 15; nothing else. -/
def Obligations.KeySkipsTestOneHeldBitOrFault : Prop :=
  ∀ (x : RegIx) (s : State),
    (encode (.skp x)).toNat = 0xE09E + x.toNat * 256 ∧ (encode (.sknp x)).toNat = 0xE0A1 + x.toNat * 256 ∧
    ((s.getV x).toNat ≤ 15 →
      (∃ t, exec (.skp x) s = .next t ∧
        t.pc = (if s.ports.keyHeld.getLsbD (s.getV x).toNat = true then s.pc + 2 else s.pc) ∧
        t = { s with pc := t.pc }) ∧
      (∃ t, exec (.sknp x) s = .next t ∧
        t.pc = (if s.ports.keyHeld.getLsbD (s.getV x).toNat = true then s.pc else s.pc + 2) ∧
        t = { s with pc := t.pc })) ∧
    (15 < (s.getV x).toNat → ∀ i, i = .skp x ∨ i = .sknp x →
      ∃ t, exec i s = .next t ∧
        t.fault = some { cause := .invalidKeyIndex, pc := s.pc - 2, opcode := encode i,
                         ea := (s.getV x).setWidth 17 } ∧
        t = { s with fault := t.fault })

/-- `Fx07`, `Fx15`, `Fx18` (R232, R234, R235): encoding; the one value moved; the timestamps and the count of triggers,
like everything else, unchanged. -/
def Obligations.TimerMovesChangeOneValue : Prop :=
  ∀ (x : RegIx) (s : State),
    (encode (.ldVxDT x)).toNat = 0xF007 + x.toNat * 256 ∧ (encode (.ldDTVx x)).toNat = 0xF015 + x.toNat * 256 ∧
    (encode (.ldSTVx x)).toNat = 0xF018 + x.toNat * 256 ∧
    (∃ t, exec (.ldVxDT x) s = .next t ∧ t.getV x = s.dt ∧ (∀ r, r ≠ x → t.getV r = s.getV r) ∧
      t = { s with v := t.v }) ∧
    (∃ t, exec (.ldDTVx x) s = .next t ∧ t.dt = s.getV x ∧ t = { s with dt := t.dt }) ∧
    (∃ t, exec (.ldSTVx x) s = .next t ∧ t.st = s.getV x ∧ t = { s with st := t.st })

/-- `Fx0A` (R233): encoding; with a key event, `Vx` holds its code and the step completes; without one the engine waits,
having changed nothing else. -/
def Obligations.KeyReadTakesTheEventOrWaits : Prop :=
  ∀ (x : RegIx) (s : State),
    (encode (.ldVxK x)).toNat = 0xF00A + x.toNat * 256 ∧
    (∀ k, s.ports.keyEvent = some k →
      ∃ t, exec (.ldVxK x) s = .next t ∧ (t.getV x).toNat = k.toNat ∧ t.keyWait = none ∧
        (∀ r, r ≠ x → t.getV r = s.getV r) ∧ t = { s with v := t.v, keyWait := none }) ∧
    (s.ports.keyEvent = none → exec (.ldVxK x) s = .next { s with keyWait := some x })

/-- `Cxnn` (R250, R251, R252): encoding; the source advances once, whatever `nn`; `Vx` is the drawn byte under the mask, so
no bit outside `nn` is set; nothing else. The drawn byte is the step's free input, any byte whatever `RNG` holds, a value
of its own for each draw when the input names none (the model's form, log entry 6), and `rng_byte` of the advanced `RNG`
where the input is a generator's. -/
def Obligations.RandomByteIsMaskedAndTheSourceAdvances : Prop :=
  ∀ (x : RegIx) (nn : Byte) (s : State),
    (encode (.rnd x nn)).toNat = 0xC000 + x.toNat * 256 + nn.toNat ∧
    ∃ t, exec (.rnd x nn) s = .next t ∧ t.rng = Config.rngNext s.rng ∧ t.draws = s.draws + 1 ∧
      (∀ b, s.ports.draw = some b → t.getV x = b &&& nn) ∧
      (s.ports.draw = none → t.getV x = Config.freeDraw s.draws &&& nn) ∧
      (s.ports.draw = some s.generatorByte → t.getV x = Config.rngByte t.rng &&& nn) ∧
      t.getV x &&& ~~~nn = 0 ∧ (t.getV x).toNat ≤ nn.toNat ∧
      (∀ r, r ≠ x → t.getV r = s.getV r) ∧ t = { s with v := t.v, rng := t.rng, draws := t.draws }

/-! ## What no instruction changes beyond its own effect -/

/-- Over all 34 instructions: a register that is not a destination keeps its value; in particular `VF` is a side effect
of the six flag writers alone (R20, R21). -/
def Obligations.RegistersChangeOnlyAsDestinationOrFlag : Prop :=
  ∀ (i : Instr) (s t : State) (r : RegIx), exec i s = .next t → i.writesReg r = false → t.getV r = s.getV r

/-- Over all 34 instructions: `I` changes only by `Annn`, `Fx1E`, `Fx29` (R22), `PC` beyond the advance only by the
control transfers and skips (R24), the stack and its depth only by `2nnn` and `00EE` (R26). -/
def Obligations.IndexPcAndStackChangeOnlyByTheirWriters : Prop :=
  ∀ (i : Instr) (s t : State), exec i s = .next t →
    (i.writesIndex = false → t.index = s.index) ∧ (i.writesPc = false → t.pc = s.pc) ∧
    (i.usesStack = false → t.stack = s.stack ∧ t.sp = s.sp)

/-- Over all 34 instructions: every byte of memory outside the bytes the instruction stores, from `I` up, reads as
before; all of memory for an instruction that stores nothing (R63, R193, R194). -/
def Obligations.MemoryChangesOnlyInTheStoredBytes : Prop :=
  ∀ (i : Instr) (s t : State) (a : Nat), exec i s = .next t →
    a < s.effAddr 0 ∨ s.effAddr 0 + i.storeLength ≤ a → t.mem.read a = s.mem.read a

/-- Over all 34 instructions: pixels change only by `00E0` and `Dxyn` (R31), `DT` only by `Fx15` and `ST` only by `Fx18`
(R27, R28), the timestamps and the triggers by none (R29, R275), `RNG` and the count of draws (the model's own, log
entry 6) only by `Cxnn` (R251 (c)), `key_wait` only by `Fx0A` (R33), and the inputs, the parameters and the `load` window by none. -/
def Obligations.OtherStateChangesOnlyByItsWriters : Prop :=
  ∀ (i : Instr) (s t : State), exec i s = .next t →
    (i.writesFb = false → ∀ px py, t.pixel px py = s.pixel px py) ∧
    ((∀ x, i ≠ .ldDTVx x) → t.dt = s.dt) ∧ ((∀ x, i ≠ .ldSTVx x) → t.st = s.st) ∧
    t.dtLast = s.dtLast ∧ t.stLast = s.stLast ∧ t.soundTriggers = s.soundTriggers ∧
    ((∀ x nn, i ≠ .rnd x nn) → t.rng = s.rng ∧ t.draws = s.draws) ∧
    ((∀ x, i ≠ .ldVxK x) → t.keyWait = s.keyWait) ∧
    t.ports = s.ports ∧ t.cfg = s.cfg ∧ t.loadOpen = s.loadOpen

/-- Over all 34 instructions: an instruction leaves the fault record alone, or raises a cause that R261 and R278 allow it,
recording the fetch address and its own word. -/
def Obligations.InstructionsRaiseOnlyTheirOwnCauses : Prop :=
  ∀ (i : Instr) (s t : State), exec i s = .next t →
    t.fault = s.fault ∨
      ∃ c ea, i.mayRaise c = true ∧ t.fault = some { cause := c, pc := s.pc - 2, opcode := encode i, ea := ea }

/-! ## What a step cannot depend on -/

/-- `key_held` is sampled by `Ex9E` and `ExA1` alone (R236): with any other instruction, two steps that differ only in the
held keys end in states that differ only there. -/
def Obligations.HeldKeysMatterToKeySkipsOnly : Prop :=
  ∀ (s t : State) (held : BitVec 16),
    (∀ x, s.nextInstr ≠ some (.skp x) ∧ s.nextInstr ≠ some (.sknp x)) → step s = .next t →
    step (s.setPorts { s.ports with keyHeld := held }) = .next (t.setPorts { t.ports with keyHeld := held })

/-- Nothing but `Cxnn` reads or advances the random source (R251 (c)): with any other instruction, two steps that differ
only in `RNG`, the draw presented and the count of draws (the last two the model's form of the free draw, log entry 6) end
in states that differ only there. -/
def Obligations.RandomSourceMattersToRndOnly : Prop :=
  ∀ (s t : State) (w : Word) (draw : Option Byte) (draws : Nat),
    (∀ x nn, s.nextInstr ≠ some (.rnd x nn)) → step s = .next t →
    step { s with rng := w, draws := draws, ports := { s.ports with draw := draw } } =
      .next { t with rng := w, draws := draws, ports := { t.ports with draw := draw } }

/-- `RNG` advances exactly once per executed `Cxnn`, and by no other request but a reset, which seeds it (R251, D5). The
number of the free draw goes on with every `Cxnn` and is kept by every other request, a reset included, so that no two
draws are one value (R252; the count is the model's own, log entry 6). -/
def Obligations.SourceAdvancesOncePerExecutedRnd : Prop :=
  ∀ (s t : State) (a : HostAction), perform a s = .next t →
    (∀ inputs x nn, a = .step inputs → s.nextInstr = some (.rnd x nn) →
      t.rng = Config.rngNext s.rng ∧ t.draws = s.draws + 1) ∧
    ((∀ inputs x nn, a = .step inputs → s.nextInstr ≠ some (.rnd x nn)) →
      t.draws = s.draws ∧ ((∀ time, a ≠ .reset time) → t.rng = s.rng) ∧ (∀ time, a = .reset time → t.rng = s.cfg.rngSeed))

/-- Dead stack entries cannot be observed (R26): two steps from states that agree but for entries at `SP` and above end in
states that agree but for entries at their `SP` and above. So the unspecified contents at reset never matter. -/
def Obligations.DeadStackEntriesAreUnobservable : Prop :=
  ∀ (s t : State) (stack : Vector Word 16), (∀ k : Fin 16, k.val < s.sp.val → stack[k] = s.stack[k]) →
    step s = .next t →
    ∃ u, step { s with stack := stack } = .next u ∧ u = { t with stack := u.stack } ∧
      ∀ k : Fin 16, k.val < t.sp.val → u.stack[k] = t.stack[k]

/-! ## Reset, load, legal states (70_reset_and_hazards.md) -/

/-- `reset` from any state (R310): every named piece of state at its reset value, `TIME` in both timestamps, `FONT` at 0x000
to 0x04F and 0 in every other byte, every pixel off, and the parameters unchanged. -/
def Obligations.ResetSetsEveryResetValue : Prop :=
  ∀ (s : State) (time : Time), ∃ t, perform (.reset time) s = .next t ∧
    (∀ r, t.getV r = 0) ∧ t.index = 0 ∧ t.pc = 0x200 ∧ t.sp = 0 ∧ t.dt = 0 ∧ t.st = 0 ∧
    t.dtLast = time ∧ t.stLast = time ∧
    (∀ k : Fin 80, t.mem.read k.val = s.cfg.font[k]) ∧ (∀ a, 80 ≤ a → t.mem.read a = 0) ∧
    (∀ px py, t.pixel px py = false) ∧ t.rng = s.cfg.rngSeed ∧ t.fault = none ∧ t.keyWait = none ∧
    t.keyWaitPort = false ∧ t.cfg = s.cfg

/-- `load` in its window (R316, R317): an image of at most 3584 bytes is copied to 0x200 up and every other byte and all
other state stay; a longer one is rejected with memory untouched and no fault. -/
def Obligations.LoadCopiesTheImageOrRejectsItWhole : Prop :=
  ∀ (s : State) (image : List Byte), s.loadOpen = true → s.mem.wf →
    (image.length ≤ 3584 → loadResult image = .loaded ∧
      ∃ t, perform (.load image) s = .next t ∧
        (∀ k b, image[k]? = some b → t.mem.read (0x200 + k) = b) ∧
        (∀ a, a < 0x200 ∨ 0x200 + image.length ≤ a → t.mem.read a = s.mem.read a) ∧
        t = { s with mem := t.mem, loadOpen := false }) ∧
    (3584 < image.length → loadResult image = .rejected ∧
      perform (.load image) s = .next { s with loadOpen := false })

/-- `load` has no meaning after a step or a second time, until the next reset (R318; the window is the model's own field,
log entry 8): any step of a running engine and any load close the window, every request but a reset keeps it closed, and
while it is closed a load is refused. -/
def Obligations.LateLoadIsRefused : Prop :=
  (∀ (s t : State), ((s.running ∧ step s = .next t) ∨ (∃ first, perform (.load first) s = .next t)) →
    t.loadOpen = false) ∧
  (∀ (s t : State) (a : HostAction), s.loadOpen = false → (∀ time, a ≠ .reset time) → perform a s = .next t →
    t.loadOpen = false) ∧
  (∀ (s : State) (image : List Byte), s.loadOpen = false → perform (.load image) s = .refused .loadOutsideWindow)

/-- The state after reset is legal, and is what a reset at `TIME` 0 gives (R41; log entries 3 to 5 for the values the spec
leaves open). -/
def Obligations.ResetStateIsLegal : Prop :=
  State.reset.Inv ∧ State.reset.resetAt 0 = State.reset ∧ State.reset.cfg.wf

/-- Every step keeps the legal states: memory in its canonical form, `PC` at most 0x10FE and live return addresses at most
0x1000 (R25), a fault record as R261 has it, never halted and waiting at once; and it leaves the load window closed, which
is the model's own field (log entry 8). -/
def Obligations.EveryStepKeepsTheStateLegal : Prop :=
  ∀ s t : State, s.Inv → step s = .next t → t.Inv ∧ t.loadOpen = false

/-- Every request of the host keeps the legal states, for all parameters, inputs and images: a reset, a load in its window
and a step with any inputs (R25, R26, R261; the load window is the model's own, log entry 8). -/
def Obligations.EveryRequestKeepsTheStateLegal : Prop :=
  ∀ (s t : State) (a : HostAction), s.Inv → perform a s = .next t → t.Inv

/-- Every state a host can bring the block to, for all parameters, inputs and images, is legal (R25, R26, R261). -/
def Obligations.EveryReachableStateIsLegal : Prop :=
  ∀ s : State, Reachable s → s.Inv
end

