-- ==== Sys2Proof/Laws/Decode.lean ====
section
/-! SUPPORT. The fields of a word in each format (spec/30_encoding.md R91, R92), the word of given fields, and each format
under the masks of R95. -/

namespace Sys2Proof

/-! ## Fields as numbers -/

theorem opOf_toNat (w : Word) : (opOf w).toNat = w.toNat / 4096 := by
  have := w.isLt
  simp [opOf, BitVec.extractLsb'_toNat, Nat.shiftRight_eq_div_pow]; omega

theorem xOf_toNat (w : Word) : (xOf w).toNat = w.toNat / 256 % 16 := by
  simp [xOf, BitVec.extractLsb'_toNat, Nat.shiftRight_eq_div_pow]

theorem yOf_toNat (w : Word) : (yOf w).toNat = w.toNat / 16 % 16 := by
  simp [yOf, BitVec.extractLsb'_toNat, Nat.shiftRight_eq_div_pow]

theorem nOf_toNat (w : Word) : (nOf w).toNat = w.toNat % 16 := by
  simp [nOf, BitVec.extractLsb'_toNat]

theorem nnOf_toNat (w : Word) : (nnOf w).toNat = w.toNat % 256 := by
  simp [nnOf, BitVec.extractLsb'_toNat]

theorem nnnOf_toNat (w : Word) : (nnnOf w).toNat = w.toNat % 4096 := by
  simp [nnnOf, BitVec.extractLsb'_toNat]

/-! ## Formats as numbers -/

theorem formatA_toNat (op : Nibble) (a : Addr12) : (formatA op a).toNat = op.toNat * 4096 + a.toNat := by
  have := op.isLt; have := a.isLt
  simp [formatA]; omega

theorem formatXI_toNat (op : Nibble) (x : RegIx) (b : Byte) :
    (formatXI op x b).toNat = op.toNat * 4096 + x.toNat * 256 + b.toNat := by
  have := op.isLt; have := x.isLt; have := b.isLt
  simp [formatXI]; omega

theorem formatXYN_toNat (op : Nibble) (x y : RegIx) (n : Nibble) :
    (formatXYN op x y n).toNat = op.toNat * 4096 + x.toNat * 256 + y.toNat * 16 + n.toNat := by
  have := op.isLt; have := x.isLt; have := y.isLt; have := n.isLt
  simp [formatXYN]; omega

/-! ## Fields of a format -/

@[simp] theorem opOf_formatA (op : Nibble) (a : Addr12) : opOf (formatA op a) = op :=
  BitVec.eq_of_toNat_eq (by have := a.isLt; rw [opOf_toNat, formatA_toNat]; omega)

@[simp] theorem nnnOf_formatA (op : Nibble) (a : Addr12) : nnnOf (formatA op a) = a :=
  BitVec.eq_of_toNat_eq (by have := a.isLt; rw [nnnOf_toNat, formatA_toNat]; omega)

@[simp] theorem opOf_formatXI (op : Nibble) (x : RegIx) (b : Byte) : opOf (formatXI op x b) = op :=
  BitVec.eq_of_toNat_eq (by have := x.isLt; have := b.isLt; rw [opOf_toNat, formatXI_toNat]; omega)

@[simp] theorem xOf_formatXI (op : Nibble) (x : RegIx) (b : Byte) : xOf (formatXI op x b) = x :=
  BitVec.eq_of_toNat_eq (by have := x.isLt; have := b.isLt; rw [xOf_toNat, formatXI_toNat]; omega)

@[simp] theorem nnOf_formatXI (op : Nibble) (x : RegIx) (b : Byte) : nnOf (formatXI op x b) = b :=
  BitVec.eq_of_toNat_eq (by have := x.isLt; have := b.isLt; rw [nnOf_toNat, formatXI_toNat]; omega)

@[simp] theorem opOf_formatXYN (op : Nibble) (x y : RegIx) (n : Nibble) : opOf (formatXYN op x y n) = op :=
  BitVec.eq_of_toNat_eq (by
    have := x.isLt; have := y.isLt; have := n.isLt; rw [opOf_toNat, formatXYN_toNat]; omega)

@[simp] theorem xOf_formatXYN (op : Nibble) (x y : RegIx) (n : Nibble) : xOf (formatXYN op x y n) = x :=
  BitVec.eq_of_toNat_eq (by
    have := x.isLt; have := y.isLt; have := n.isLt; rw [xOf_toNat, formatXYN_toNat]; omega)

@[simp] theorem yOf_formatXYN (op : Nibble) (x y : RegIx) (n : Nibble) : yOf (formatXYN op x y n) = y :=
  BitVec.eq_of_toNat_eq (by
    have := x.isLt; have := y.isLt; have := n.isLt; rw [yOf_toNat, formatXYN_toNat]; omega)

@[simp] theorem nOf_formatXYN (op : Nibble) (x y : RegIx) (n : Nibble) : nOf (formatXYN op x y n) = n :=
  BitVec.eq_of_toNat_eq (by
    have := x.isLt; have := y.isLt; have := n.isLt; rw [nOf_toNat, formatXYN_toNat]; omega)

/-! ## The word of given fields -/

theorem formatA_fields (w : Word) : formatA (opOf w) (nnnOf w) = w :=
  BitVec.eq_of_toNat_eq (by rw [formatA_toNat, opOf_toNat, nnnOf_toNat]; omega)

theorem formatXI_fields (w : Word) : formatXI (opOf w) (xOf w) (nnOf w) = w :=
  BitVec.eq_of_toNat_eq (by rw [formatXI_toNat, opOf_toNat, xOf_toNat, nnOf_toNat]; omega)

theorem formatXYN_fields (w : Word) : formatXYN (opOf w) (xOf w) (yOf w) (nOf w) = w :=
  BitVec.eq_of_toNat_eq (by rw [formatXYN_toNat, opOf_toNat, xOf_toNat, yOf_toNat, nOf_toNat]; omega)

/-! ## Bytes of a word -/

@[simp] theorem wordOfBytes_high_low (w : Word) : wordOfBytes (highByte w) (lowByte w) = w :=
  BitVec.eq_of_toNat_eq (by
    have := w.isLt
    simp [wordOfBytes, highByte, lowByte, BitVec.extractLsb'_toNat, Nat.shiftRight_eq_div_pow]; omega)

/-! ## The masks of R95 -/

theorem and_F000 (w : Word) : (w &&& 0xF000#16).toNat = w.toNat / 4096 * 4096 := by
  have h : w &&& 0xF000#16 = (w >>> 12) <<< 12 := by
    ext i hi
    have : i < 16 := hi
    interval_cases i <;> simp
  have := w.isLt
  rw [h]
  simp [Nat.shiftRight_eq_div_pow, Nat.shiftLeft_eq]
  omega

theorem and_00FF (w : Word) : (w &&& 0x00FF#16).toNat = w.toNat % 256 := by
  rw [BitVec.toNat_and]
  exact Nat.and_two_pow_sub_one_eq_mod w.toNat 8

theorem and_000F (w : Word) : (w &&& 0x000F#16).toNat = w.toNat % 16 := by
  rw [BitVec.toNat_and]
  exact Nat.and_two_pow_sub_one_eq_mod w.toNat 4

theorem and_F0FF (w : Word) : (w &&& 0xF0FF#16).toNat = w.toNat / 4096 * 4096 + w.toNat % 256 := by
  have h : w &&& 0xF0FF#16 = (w &&& 0xF000#16) ||| (w &&& 0x00FF#16) := by
    rw [← BitVec.and_or_distrib_left]; rfl
  have hd : (w &&& 0xF000#16) &&& (w &&& 0x00FF#16) = 0#16 := by
    ext i hi
    have : i < 16 := hi
    interval_cases i <;> simp
  rw [h, ← BitVec.add_eq_or_of_and_eq_zero _ _ hd, BitVec.toNat_add, and_F000, and_00FF]
  have := w.isLt
  omega

theorem and_F00F (w : Word) : (w &&& 0xF00F#16).toNat = w.toNat / 4096 * 4096 + w.toNat % 16 := by
  have h : w &&& 0xF00F#16 = (w &&& 0xF000#16) ||| (w &&& 0x000F#16) := by
    rw [← BitVec.and_or_distrib_left]; rfl
  have hd : (w &&& 0xF000#16) &&& (w &&& 0x000F#16) = 0#16 := by
    ext i hi
    have : i < 16 := hi
    interval_cases i <;> simp
  rw [h, ← BitVec.add_eq_or_of_and_eq_zero _ _ hd, BitVec.toNat_add, and_F000, and_000F]
  have := w.isLt
  omega

theorem formatA_mask (op : Nibble) (a : Addr12) : formatA op a &&& 0xF000#16 = formatA op 0 :=
  BitVec.eq_of_toNat_eq (by
    have := a.isLt; rw [and_F000, formatA_toNat, formatA_toNat]; simp; omega)

theorem formatXI_mask (op : Nibble) (x : RegIx) (b : Byte) : formatXI op x b &&& 0xF000#16 = formatXI op 0 0 :=
  BitVec.eq_of_toNat_eq (by
    have := x.isLt; have := b.isLt
    rw [and_F000, formatXI_toNat, formatXI_toNat]; simp; omega)

theorem formatXYN_mask (op : Nibble) (x y : RegIx) (n : Nibble) :
    formatXYN op x y n &&& 0xF000#16 = formatXYN op 0 0 0 :=
  BitVec.eq_of_toNat_eq (by
    have := x.isLt; have := y.isLt; have := n.isLt
    rw [and_F000, formatXYN_toNat, formatXYN_toNat]; simp; omega)

theorem formatXYN_subMask (op : Nibble) (x y : RegIx) (n : Nibble) :
    formatXYN op x y n &&& 0xF00F#16 = formatXYN op 0 0 n :=
  BitVec.eq_of_toNat_eq (by
    have := x.isLt; have := y.isLt; have := n.isLt
    rw [and_F00F, formatXYN_toNat, formatXYN_toNat]; simp; omega)

theorem formatXI_subMask (op : Nibble) (x : RegIx) (b : Byte) : formatXI op x b &&& 0xF0FF#16 = formatXI op 0 b :=
  BitVec.eq_of_toNat_eq (by
    have := x.isLt; have := b.isLt
    rw [and_F0FF, formatXI_toNat, formatXI_toNat]; simp; omega)

end Sys2Proof
end

