-- ==== Sys2Proof/Laws/Memory.lean ====
section
/-! SUPPORT. What the memory operations do: a read after a write, the frame of a write, and that every write keeps the
canonical form. -/

namespace Sys2Proof.Machine

theorem Memory.read_nil (a : Nat) : Memory.read [] a = Memory.unlisted := rfl

theorem Memory.wf_nil : Memory.wf [] := ⟨List.Pairwise.nil, by simp⟩

theorem Memory.wf_tail {c : Host.Cell} {m : Memory} (h : Memory.wf (c :: m)) : Memory.wf m :=
  ⟨(List.pairwise_cons.1 h.1).2, fun d hd => h.2 d (List.mem_cons_of_mem _ hd)⟩

/-- An address below every listed one reads as unlisted. -/
theorem Memory.read_of_lt_all {m : Memory} {a : Nat} (h : ∀ c ∈ m, a < c.1) : m.read a = Memory.unlisted := by
  induction m with
  | nil => rfl
  | cons c m ih =>
    have h1 := h c (by simp)
    have : c.1 ≠ a := by omega
    obtain ⟨k, b⟩ := c
    simp only [Memory.read]
    rw [if_neg this]
    exact ih fun d hd => h d (List.mem_cons_of_mem _ hd)

theorem Memory.lt_all_of_wf_cons {k : Nat} {b : Byte} {m : Memory} (h : Memory.wf ((k, b) :: m)) : ∀ c ∈ m, k < c.1 :=
  (List.pairwise_cons.1 h.1).1

/-- A write leaves every other address alone. -/
theorem Memory.read_write_ne (m : Memory) {a k : Nat} (b : Byte) (h : k ≠ a) : (m.write a b).read k = m.read k := by
  induction m with
  | nil =>
    unfold Memory.write Memory.consCell
    split
    · rfl
    · simp [Memory.read, Ne.symm h]
  | cons c m ih =>
    obtain ⟨j, d⟩ := c
    unfold Memory.write Memory.consCell
    split
    · split
      · rfl
      · rw [Memory.read, if_neg (Ne.symm h)]
    · split
      · rename_i hj
        have hjk : j ≠ k := by omega
        split
        · rw [Memory.read, if_neg hjk]
        · rw [Memory.read, if_neg (Ne.symm h), Memory.read, if_neg hjk]
      · simp only [Memory.read]
        split
        · rfl
        · exact ih

/-- A read after a write to the same address gives the byte written. -/
theorem Memory.read_write_self {m : Memory} (h : m.wf) (a : Nat) (b : Byte) : (m.write a b).read a = b := by
  induction m with
  | nil =>
    unfold Memory.write Memory.consCell
    split
    · rename_i hb; simp [Memory.read, hb]
    · simp [Memory.read]
  | cons c m ih =>
    obtain ⟨j, d⟩ := c
    have hall := Memory.lt_all_of_wf_cons h
    unfold Memory.write Memory.consCell
    split
    · rename_i haj
      split
      · rename_i hb
        rw [hb]
        refine Memory.read_of_lt_all fun e he => ?_
        rcases List.mem_cons.1 he with rfl | he
        · exact haj
        · exact Nat.lt_trans haj (hall e he)
      · simp [Memory.read]
    · split
      · rename_i haj
        split
        · rename_i hb
          rw [hb]
          refine Memory.read_of_lt_all fun e he => ?_
          rw [haj]; exact hall e he
        · simp [Memory.read]
      · rename_i h1 h2
        rw [Memory.read, if_neg (Ne.symm h2)]
        exact ih (Memory.wf_tail h)

theorem Memory.read_write {m : Memory} (h : m.wf) (a k : Nat) (b : Byte) :
    (m.write a b).read k = if k = a then b else m.read k := by
  split
  · rename_i e; rw [e]; exact Memory.read_write_self h a b
  · rename_i e; exact Memory.read_write_ne m b e

/-- The addresses a write lists are those listed before and the one written. -/
theorem Memory.mem_write {m : Memory} {a : Nat} {b : Byte} {c : Host.Cell} (h : c ∈ m.write a b) :
    c ∈ m ∨ (c = (a, b) ∧ b ≠ Memory.unlisted) := by
  induction m with
  | nil =>
    unfold Memory.write Memory.consCell at h
    split at h <;> simp_all
  | cons d m ih =>
    obtain ⟨j, e⟩ := d
    unfold Memory.write Memory.consCell at h
    split at h
    · split at h <;> simp_all
      tauto
    · split at h
      · split at h <;> simp_all
        tauto
      · rcases List.mem_cons.1 h with rfl | h
        · exact .inl (by simp)
        · rcases ih h with h | h
          · exact .inl (List.mem_cons_of_mem _ h)
          · exact .inr h

/-- Every write inside the address space keeps the canonical form. -/
theorem Memory.write_wf {m : Memory} (h : m.wf) {a : Nat} (ha : a < memSize) (b : Byte) : (m.write a b).wf := by
  refine ⟨?_, fun c hc => ?_⟩
  · induction m with
    | nil =>
      unfold Memory.write Memory.consCell
      split <;> simp
    | cons d m ih =>
      obtain ⟨j, e⟩ := d
      have hall := Memory.lt_all_of_wf_cons h
      unfold Memory.write Memory.consCell
      split
      · rename_i haj
        split
        · exact h.1
        · refine List.pairwise_cons.2 ⟨fun f hf => ?_, h.1⟩
          rcases List.mem_cons.1 hf with rfl | hf
          · exact haj
          · exact Nat.lt_trans haj (hall f hf)
      · split
        · rename_i haj
          split
          · exact (Memory.wf_tail h).1
          · refine List.pairwise_cons.2 ⟨fun f hf => ?_, (Memory.wf_tail h).1⟩
            rw [haj]; exact hall f hf
        · rename_i h1 h2
          refine List.pairwise_cons.2 ⟨fun f hf => ?_, ih (Memory.wf_tail h)⟩
          rcases Memory.mem_write hf with hf | ⟨rfl, -⟩
          · exact hall f hf
          · show j < a
            omega
  · rcases Memory.mem_write hc with hc | ⟨rfl, hb⟩
    · exact h.2 c hc
    · exact ⟨ha, hb⟩

/-- Consecutive writes inside the address space keep the canonical form. -/
theorem Memory.writeBytes_wf {m : Memory} (h : m.wf) (a : Nat) (bs : List Byte) (ha : a + bs.length ≤ memSize) :
    (m.writeBytes a bs).wf := by
  induction bs generalizing m a with
  | nil => exact h
  | cons b bs ih =>
    simp only [List.length_cons] at ha
    exact ih (Memory.write_wf h (by omega) b) (a + 1) (by omega)

/-- What consecutive writes leave at each address. -/
theorem Memory.read_writeBytes {m : Memory} (h : m.wf) (a k : Nat) (bs : List Byte) (ha : a + bs.length ≤ memSize) :
    (m.writeBytes a bs).read k = if a ≤ k then (bs[k - a]?).getD (m.read k) else m.read k := by
  induction bs generalizing m a with
  | nil => simp [Memory.writeBytes]
  | cons b bs ih =>
    simp only [List.length_cons] at ha
    rw [Memory.writeBytes, ih (Memory.write_wf h (by omega) b) (a + 1) (by omega), Memory.read_write h]
    by_cases h1 : a = k
    · subst h1
      simp [show ¬ a + 1 ≤ a by omega]
    · by_cases h2 : a ≤ k
      · have h3 : a + 1 ≤ k := by omega
        have h4 : k - a = (k - (a + 1)) + 1 := by omega
        simp [h2, h3, h4, Ne.symm h1]
      · simp [h2, show ¬ a + 1 ≤ k by omega, Ne.symm h1]

/-- Consecutive writes leave every address outside them alone, whatever the form of the memory. -/
theorem Memory.read_writeBytes_outside (m : Memory) (a k : Nat) (bs : List Byte) (hk : k < a ∨ a + bs.length ≤ k) :
    (m.writeBytes a bs).read k = m.read k := by
  induction bs generalizing m a with
  | nil => rfl
  | cons b bs ih =>
    simp only [List.length_cons] at hk
    rw [Memory.writeBytes, ih _ _ (by omega), Memory.read_write_ne _ _ (by omega)]

end Sys2Proof.Machine
end

