-- ==== Sys2Proof/Laws/State.lean ====
section
/-! SUPPORT. One lemma per field of `State` per update, true by rfl, so that no proof unfolds a record update; and the
register, pixel and memory reads under each update. -/

namespace Sys2Proof.Machine

/-! ## `setV` -/

@[simp] theorem State.setV_v (s : State) (x : RegIx) (b : Byte) : (s.setV x b).v = s.v.set x.toNat b x.isLt := rfl
@[simp] theorem State.setV_index (s : State) (x : RegIx) (b : Byte) : (s.setV x b).index = s.index := rfl
@[simp] theorem State.setV_pc (s : State) (x : RegIx) (b : Byte) : (s.setV x b).pc = s.pc := rfl
@[simp] theorem State.setV_stack (s : State) (x : RegIx) (b : Byte) : (s.setV x b).stack = s.stack := rfl
@[simp] theorem State.setV_sp (s : State) (x : RegIx) (b : Byte) : (s.setV x b).sp = s.sp := rfl
@[simp] theorem State.setV_dt (s : State) (x : RegIx) (b : Byte) : (s.setV x b).dt = s.dt := rfl
@[simp] theorem State.setV_st (s : State) (x : RegIx) (b : Byte) : (s.setV x b).st = s.st := rfl
@[simp] theorem State.setV_dtLast (s : State) (x : RegIx) (b : Byte) : (s.setV x b).dtLast = s.dtLast := rfl
@[simp] theorem State.setV_stLast (s : State) (x : RegIx) (b : Byte) : (s.setV x b).stLast = s.stLast := rfl
@[simp] theorem State.setV_mem (s : State) (x : RegIx) (b : Byte) : (s.setV x b).mem = s.mem := rfl
@[simp] theorem State.setV_fb (s : State) (x : RegIx) (b : Byte) : (s.setV x b).fb = s.fb := rfl
@[simp] theorem State.setV_rng (s : State) (x : RegIx) (b : Byte) : (s.setV x b).rng = s.rng := rfl
@[simp] theorem State.setV_fault (s : State) (x : RegIx) (b : Byte) : (s.setV x b).fault = s.fault := rfl
@[simp] theorem State.setV_keyWait (s : State) (x : RegIx) (b : Byte) : (s.setV x b).keyWait = s.keyWait := rfl
@[simp] theorem State.setV_soundTriggers (s : State) (x : RegIx) (b : Byte) : (s.setV x b).soundTriggers = s.soundTriggers := rfl
@[simp] theorem State.setV_loadOpen (s : State) (x : RegIx) (b : Byte) : (s.setV x b).loadOpen = s.loadOpen := rfl
@[simp] theorem State.setV_draws (s : State) (x : RegIx) (b : Byte) : (s.setV x b).draws = s.draws := rfl
@[simp] theorem State.setV_ports (s : State) (x : RegIx) (b : Byte) : (s.setV x b).ports = s.ports := rfl
@[simp] theorem State.setV_cfg (s : State) (x : RegIx) (b : Byte) : (s.setV x b).cfg = s.cfg := rfl
@[simp] theorem State.pixel_setV (s : State) (x : RegIx) (b : Byte) (px : Fin 64) (py : Fin 32) :
    (s.setV x b).pixel px py = s.pixel px py := rfl
@[simp] theorem State.effAddr_setV (s : State) (x : RegIx) (b : Byte) (j : Nat) : (s.setV x b).effAddr j = s.effAddr j := rfl
@[simp] theorem State.memRead_setV (s : State) (x : RegIx) (b : Byte) (j : Nat) : (s.setV x b).memRead j = s.memRead j := rfl

/-! ## `setIndex` -/

@[simp] theorem State.setIndex_v (s : State) (w : Word) : (s.setIndex w).v = s.v := rfl
@[simp] theorem State.setIndex_index (s : State) (w : Word) : (s.setIndex w).index = w := rfl
@[simp] theorem State.setIndex_pc (s : State) (w : Word) : (s.setIndex w).pc = s.pc := rfl
@[simp] theorem State.setIndex_stack (s : State) (w : Word) : (s.setIndex w).stack = s.stack := rfl
@[simp] theorem State.setIndex_sp (s : State) (w : Word) : (s.setIndex w).sp = s.sp := rfl
@[simp] theorem State.setIndex_dt (s : State) (w : Word) : (s.setIndex w).dt = s.dt := rfl
@[simp] theorem State.setIndex_st (s : State) (w : Word) : (s.setIndex w).st = s.st := rfl
@[simp] theorem State.setIndex_dtLast (s : State) (w : Word) : (s.setIndex w).dtLast = s.dtLast := rfl
@[simp] theorem State.setIndex_stLast (s : State) (w : Word) : (s.setIndex w).stLast = s.stLast := rfl
@[simp] theorem State.setIndex_mem (s : State) (w : Word) : (s.setIndex w).mem = s.mem := rfl
@[simp] theorem State.setIndex_fb (s : State) (w : Word) : (s.setIndex w).fb = s.fb := rfl
@[simp] theorem State.setIndex_rng (s : State) (w : Word) : (s.setIndex w).rng = s.rng := rfl
@[simp] theorem State.setIndex_fault (s : State) (w : Word) : (s.setIndex w).fault = s.fault := rfl
@[simp] theorem State.setIndex_keyWait (s : State) (w : Word) : (s.setIndex w).keyWait = s.keyWait := rfl
@[simp] theorem State.setIndex_soundTriggers (s : State) (w : Word) : (s.setIndex w).soundTriggers = s.soundTriggers := rfl
@[simp] theorem State.setIndex_loadOpen (s : State) (w : Word) : (s.setIndex w).loadOpen = s.loadOpen := rfl
@[simp] theorem State.setIndex_draws (s : State) (w : Word) : (s.setIndex w).draws = s.draws := rfl
@[simp] theorem State.setIndex_ports (s : State) (w : Word) : (s.setIndex w).ports = s.ports := rfl
@[simp] theorem State.setIndex_cfg (s : State) (w : Word) : (s.setIndex w).cfg = s.cfg := rfl
@[simp] theorem State.getV_setIndex (s : State) (w : Word) (r : RegIx) : (s.setIndex w).getV r = s.getV r := rfl
@[simp] theorem State.pixel_setIndex (s : State) (w : Word) (px : Fin 64) (py : Fin 32) :
    (s.setIndex w).pixel px py = s.pixel px py := rfl
@[simp] theorem State.memRead_setIndex (s : State) (w : Word) (j : Nat) : (s.setIndex w).memRead j = s.memRead j := rfl

/-! ## `setPc` -/

@[simp] theorem State.setPc_v (s : State) (w : Word) : (s.setPc w).v = s.v := rfl
@[simp] theorem State.setPc_index (s : State) (w : Word) : (s.setPc w).index = s.index := rfl
@[simp] theorem State.setPc_pc (s : State) (w : Word) : (s.setPc w).pc = w := rfl
@[simp] theorem State.setPc_stack (s : State) (w : Word) : (s.setPc w).stack = s.stack := rfl
@[simp] theorem State.setPc_sp (s : State) (w : Word) : (s.setPc w).sp = s.sp := rfl
@[simp] theorem State.setPc_dt (s : State) (w : Word) : (s.setPc w).dt = s.dt := rfl
@[simp] theorem State.setPc_st (s : State) (w : Word) : (s.setPc w).st = s.st := rfl
@[simp] theorem State.setPc_dtLast (s : State) (w : Word) : (s.setPc w).dtLast = s.dtLast := rfl
@[simp] theorem State.setPc_stLast (s : State) (w : Word) : (s.setPc w).stLast = s.stLast := rfl
@[simp] theorem State.setPc_mem (s : State) (w : Word) : (s.setPc w).mem = s.mem := rfl
@[simp] theorem State.setPc_fb (s : State) (w : Word) : (s.setPc w).fb = s.fb := rfl
@[simp] theorem State.setPc_rng (s : State) (w : Word) : (s.setPc w).rng = s.rng := rfl
@[simp] theorem State.setPc_fault (s : State) (w : Word) : (s.setPc w).fault = s.fault := rfl
@[simp] theorem State.setPc_keyWait (s : State) (w : Word) : (s.setPc w).keyWait = s.keyWait := rfl
@[simp] theorem State.setPc_soundTriggers (s : State) (w : Word) : (s.setPc w).soundTriggers = s.soundTriggers := rfl
@[simp] theorem State.setPc_loadOpen (s : State) (w : Word) : (s.setPc w).loadOpen = s.loadOpen := rfl
@[simp] theorem State.setPc_draws (s : State) (w : Word) : (s.setPc w).draws = s.draws := rfl
@[simp] theorem State.setPc_ports (s : State) (w : Word) : (s.setPc w).ports = s.ports := rfl
@[simp] theorem State.setPc_cfg (s : State) (w : Word) : (s.setPc w).cfg = s.cfg := rfl
@[simp] theorem State.getV_setPc (s : State) (w : Word) (r : RegIx) : (s.setPc w).getV r = s.getV r := rfl
@[simp] theorem State.pixel_setPc (s : State) (w : Word) (px : Fin 64) (py : Fin 32) :
    (s.setPc w).pixel px py = s.pixel px py := rfl
@[simp] theorem State.effAddr_setPc (s : State) (w : Word) (j : Nat) : (s.setPc w).effAddr j = s.effAddr j := rfl
@[simp] theorem State.memRead_setPc (s : State) (w : Word) (j : Nat) : (s.setPc w).memRead j = s.memRead j := rfl

/-! ## `setDt` -/

@[simp] theorem State.setDt_v (s : State) (b : Byte) : (s.setDt b).v = s.v := rfl
@[simp] theorem State.setDt_index (s : State) (b : Byte) : (s.setDt b).index = s.index := rfl
@[simp] theorem State.setDt_pc (s : State) (b : Byte) : (s.setDt b).pc = s.pc := rfl
@[simp] theorem State.setDt_stack (s : State) (b : Byte) : (s.setDt b).stack = s.stack := rfl
@[simp] theorem State.setDt_sp (s : State) (b : Byte) : (s.setDt b).sp = s.sp := rfl
@[simp] theorem State.setDt_dt (s : State) (b : Byte) : (s.setDt b).dt = b := rfl
@[simp] theorem State.setDt_st (s : State) (b : Byte) : (s.setDt b).st = s.st := rfl
@[simp] theorem State.setDt_dtLast (s : State) (b : Byte) : (s.setDt b).dtLast = s.dtLast := rfl
@[simp] theorem State.setDt_stLast (s : State) (b : Byte) : (s.setDt b).stLast = s.stLast := rfl
@[simp] theorem State.setDt_mem (s : State) (b : Byte) : (s.setDt b).mem = s.mem := rfl
@[simp] theorem State.setDt_fb (s : State) (b : Byte) : (s.setDt b).fb = s.fb := rfl
@[simp] theorem State.setDt_rng (s : State) (b : Byte) : (s.setDt b).rng = s.rng := rfl
@[simp] theorem State.setDt_fault (s : State) (b : Byte) : (s.setDt b).fault = s.fault := rfl
@[simp] theorem State.setDt_keyWait (s : State) (b : Byte) : (s.setDt b).keyWait = s.keyWait := rfl
@[simp] theorem State.setDt_soundTriggers (s : State) (b : Byte) : (s.setDt b).soundTriggers = s.soundTriggers := rfl
@[simp] theorem State.setDt_loadOpen (s : State) (b : Byte) : (s.setDt b).loadOpen = s.loadOpen := rfl
@[simp] theorem State.setDt_draws (s : State) (b : Byte) : (s.setDt b).draws = s.draws := rfl
@[simp] theorem State.setDt_ports (s : State) (b : Byte) : (s.setDt b).ports = s.ports := rfl
@[simp] theorem State.setDt_cfg (s : State) (b : Byte) : (s.setDt b).cfg = s.cfg := rfl
@[simp] theorem State.getV_setDt (s : State) (b : Byte) (r : RegIx) : (s.setDt b).getV r = s.getV r := rfl
@[simp] theorem State.pixel_setDt (s : State) (b : Byte) (px : Fin 64) (py : Fin 32) :
    (s.setDt b).pixel px py = s.pixel px py := rfl
@[simp] theorem State.effAddr_setDt (s : State) (b : Byte) (j : Nat) : (s.setDt b).effAddr j = s.effAddr j := rfl
@[simp] theorem State.memRead_setDt (s : State) (b : Byte) (j : Nat) : (s.setDt b).memRead j = s.memRead j := rfl

/-! ## `setSt` -/

@[simp] theorem State.setSt_v (s : State) (b : Byte) : (s.setSt b).v = s.v := rfl
@[simp] theorem State.setSt_index (s : State) (b : Byte) : (s.setSt b).index = s.index := rfl
@[simp] theorem State.setSt_pc (s : State) (b : Byte) : (s.setSt b).pc = s.pc := rfl
@[simp] theorem State.setSt_stack (s : State) (b : Byte) : (s.setSt b).stack = s.stack := rfl
@[simp] theorem State.setSt_sp (s : State) (b : Byte) : (s.setSt b).sp = s.sp := rfl
@[simp] theorem State.setSt_dt (s : State) (b : Byte) : (s.setSt b).dt = s.dt := rfl
@[simp] theorem State.setSt_st (s : State) (b : Byte) : (s.setSt b).st = b := rfl
@[simp] theorem State.setSt_dtLast (s : State) (b : Byte) : (s.setSt b).dtLast = s.dtLast := rfl
@[simp] theorem State.setSt_stLast (s : State) (b : Byte) : (s.setSt b).stLast = s.stLast := rfl
@[simp] theorem State.setSt_mem (s : State) (b : Byte) : (s.setSt b).mem = s.mem := rfl
@[simp] theorem State.setSt_fb (s : State) (b : Byte) : (s.setSt b).fb = s.fb := rfl
@[simp] theorem State.setSt_rng (s : State) (b : Byte) : (s.setSt b).rng = s.rng := rfl
@[simp] theorem State.setSt_fault (s : State) (b : Byte) : (s.setSt b).fault = s.fault := rfl
@[simp] theorem State.setSt_keyWait (s : State) (b : Byte) : (s.setSt b).keyWait = s.keyWait := rfl
@[simp] theorem State.setSt_soundTriggers (s : State) (b : Byte) : (s.setSt b).soundTriggers = s.soundTriggers := rfl
@[simp] theorem State.setSt_loadOpen (s : State) (b : Byte) : (s.setSt b).loadOpen = s.loadOpen := rfl
@[simp] theorem State.setSt_draws (s : State) (b : Byte) : (s.setSt b).draws = s.draws := rfl
@[simp] theorem State.setSt_ports (s : State) (b : Byte) : (s.setSt b).ports = s.ports := rfl
@[simp] theorem State.setSt_cfg (s : State) (b : Byte) : (s.setSt b).cfg = s.cfg := rfl
@[simp] theorem State.getV_setSt (s : State) (b : Byte) (r : RegIx) : (s.setSt b).getV r = s.getV r := rfl
@[simp] theorem State.pixel_setSt (s : State) (b : Byte) (px : Fin 64) (py : Fin 32) :
    (s.setSt b).pixel px py = s.pixel px py := rfl
@[simp] theorem State.effAddr_setSt (s : State) (b : Byte) (j : Nat) : (s.setSt b).effAddr j = s.effAddr j := rfl
@[simp] theorem State.memRead_setSt (s : State) (b : Byte) (j : Nat) : (s.setSt b).memRead j = s.memRead j := rfl

/-! ## `setDtLast` -/

@[simp] theorem State.setDtLast_v (s : State) (n : Time) : (s.setDtLast n).v = s.v := rfl
@[simp] theorem State.setDtLast_index (s : State) (n : Time) : (s.setDtLast n).index = s.index := rfl
@[simp] theorem State.setDtLast_pc (s : State) (n : Time) : (s.setDtLast n).pc = s.pc := rfl
@[simp] theorem State.setDtLast_stack (s : State) (n : Time) : (s.setDtLast n).stack = s.stack := rfl
@[simp] theorem State.setDtLast_sp (s : State) (n : Time) : (s.setDtLast n).sp = s.sp := rfl
@[simp] theorem State.setDtLast_dt (s : State) (n : Time) : (s.setDtLast n).dt = s.dt := rfl
@[simp] theorem State.setDtLast_st (s : State) (n : Time) : (s.setDtLast n).st = s.st := rfl
@[simp] theorem State.setDtLast_dtLast (s : State) (n : Time) : (s.setDtLast n).dtLast = n := rfl
@[simp] theorem State.setDtLast_stLast (s : State) (n : Time) : (s.setDtLast n).stLast = s.stLast := rfl
@[simp] theorem State.setDtLast_mem (s : State) (n : Time) : (s.setDtLast n).mem = s.mem := rfl
@[simp] theorem State.setDtLast_fb (s : State) (n : Time) : (s.setDtLast n).fb = s.fb := rfl
@[simp] theorem State.setDtLast_rng (s : State) (n : Time) : (s.setDtLast n).rng = s.rng := rfl
@[simp] theorem State.setDtLast_fault (s : State) (n : Time) : (s.setDtLast n).fault = s.fault := rfl
@[simp] theorem State.setDtLast_keyWait (s : State) (n : Time) : (s.setDtLast n).keyWait = s.keyWait := rfl
@[simp] theorem State.setDtLast_soundTriggers (s : State) (n : Time) : (s.setDtLast n).soundTriggers = s.soundTriggers := rfl
@[simp] theorem State.setDtLast_loadOpen (s : State) (n : Time) : (s.setDtLast n).loadOpen = s.loadOpen := rfl
@[simp] theorem State.setDtLast_draws (s : State) (n : Time) : (s.setDtLast n).draws = s.draws := rfl
@[simp] theorem State.setDtLast_ports (s : State) (n : Time) : (s.setDtLast n).ports = s.ports := rfl
@[simp] theorem State.setDtLast_cfg (s : State) (n : Time) : (s.setDtLast n).cfg = s.cfg := rfl
@[simp] theorem State.getV_setDtLast (s : State) (n : Time) (r : RegIx) : (s.setDtLast n).getV r = s.getV r := rfl
@[simp] theorem State.pixel_setDtLast (s : State) (n : Time) (px : Fin 64) (py : Fin 32) :
    (s.setDtLast n).pixel px py = s.pixel px py := rfl
@[simp] theorem State.effAddr_setDtLast (s : State) (n : Time) (j : Nat) : (s.setDtLast n).effAddr j = s.effAddr j := rfl
@[simp] theorem State.memRead_setDtLast (s : State) (n : Time) (j : Nat) : (s.setDtLast n).memRead j = s.memRead j := rfl

/-! ## `setStLast` -/

@[simp] theorem State.setStLast_v (s : State) (n : Time) : (s.setStLast n).v = s.v := rfl
@[simp] theorem State.setStLast_index (s : State) (n : Time) : (s.setStLast n).index = s.index := rfl
@[simp] theorem State.setStLast_pc (s : State) (n : Time) : (s.setStLast n).pc = s.pc := rfl
@[simp] theorem State.setStLast_stack (s : State) (n : Time) : (s.setStLast n).stack = s.stack := rfl
@[simp] theorem State.setStLast_sp (s : State) (n : Time) : (s.setStLast n).sp = s.sp := rfl
@[simp] theorem State.setStLast_dt (s : State) (n : Time) : (s.setStLast n).dt = s.dt := rfl
@[simp] theorem State.setStLast_st (s : State) (n : Time) : (s.setStLast n).st = s.st := rfl
@[simp] theorem State.setStLast_dtLast (s : State) (n : Time) : (s.setStLast n).dtLast = s.dtLast := rfl
@[simp] theorem State.setStLast_stLast (s : State) (n : Time) : (s.setStLast n).stLast = n := rfl
@[simp] theorem State.setStLast_mem (s : State) (n : Time) : (s.setStLast n).mem = s.mem := rfl
@[simp] theorem State.setStLast_fb (s : State) (n : Time) : (s.setStLast n).fb = s.fb := rfl
@[simp] theorem State.setStLast_rng (s : State) (n : Time) : (s.setStLast n).rng = s.rng := rfl
@[simp] theorem State.setStLast_fault (s : State) (n : Time) : (s.setStLast n).fault = s.fault := rfl
@[simp] theorem State.setStLast_keyWait (s : State) (n : Time) : (s.setStLast n).keyWait = s.keyWait := rfl
@[simp] theorem State.setStLast_soundTriggers (s : State) (n : Time) : (s.setStLast n).soundTriggers = s.soundTriggers := rfl
@[simp] theorem State.setStLast_loadOpen (s : State) (n : Time) : (s.setStLast n).loadOpen = s.loadOpen := rfl
@[simp] theorem State.setStLast_draws (s : State) (n : Time) : (s.setStLast n).draws = s.draws := rfl
@[simp] theorem State.setStLast_ports (s : State) (n : Time) : (s.setStLast n).ports = s.ports := rfl
@[simp] theorem State.setStLast_cfg (s : State) (n : Time) : (s.setStLast n).cfg = s.cfg := rfl
@[simp] theorem State.getV_setStLast (s : State) (n : Time) (r : RegIx) : (s.setStLast n).getV r = s.getV r := rfl
@[simp] theorem State.pixel_setStLast (s : State) (n : Time) (px : Fin 64) (py : Fin 32) :
    (s.setStLast n).pixel px py = s.pixel px py := rfl
@[simp] theorem State.effAddr_setStLast (s : State) (n : Time) (j : Nat) : (s.setStLast n).effAddr j = s.effAddr j := rfl
@[simp] theorem State.memRead_setStLast (s : State) (n : Time) (j : Nat) : (s.setStLast n).memRead j = s.memRead j := rfl

/-! ## `setRng` -/

@[simp] theorem State.setRng_v (s : State) (w : Word) : (s.setRng w).v = s.v := rfl
@[simp] theorem State.setRng_index (s : State) (w : Word) : (s.setRng w).index = s.index := rfl
@[simp] theorem State.setRng_pc (s : State) (w : Word) : (s.setRng w).pc = s.pc := rfl
@[simp] theorem State.setRng_stack (s : State) (w : Word) : (s.setRng w).stack = s.stack := rfl
@[simp] theorem State.setRng_sp (s : State) (w : Word) : (s.setRng w).sp = s.sp := rfl
@[simp] theorem State.setRng_dt (s : State) (w : Word) : (s.setRng w).dt = s.dt := rfl
@[simp] theorem State.setRng_st (s : State) (w : Word) : (s.setRng w).st = s.st := rfl
@[simp] theorem State.setRng_dtLast (s : State) (w : Word) : (s.setRng w).dtLast = s.dtLast := rfl
@[simp] theorem State.setRng_stLast (s : State) (w : Word) : (s.setRng w).stLast = s.stLast := rfl
@[simp] theorem State.setRng_mem (s : State) (w : Word) : (s.setRng w).mem = s.mem := rfl
@[simp] theorem State.setRng_fb (s : State) (w : Word) : (s.setRng w).fb = s.fb := rfl
@[simp] theorem State.setRng_rng (s : State) (w : Word) : (s.setRng w).rng = w := rfl
@[simp] theorem State.setRng_fault (s : State) (w : Word) : (s.setRng w).fault = s.fault := rfl
@[simp] theorem State.setRng_keyWait (s : State) (w : Word) : (s.setRng w).keyWait = s.keyWait := rfl
@[simp] theorem State.setRng_soundTriggers (s : State) (w : Word) : (s.setRng w).soundTriggers = s.soundTriggers := rfl
@[simp] theorem State.setRng_loadOpen (s : State) (w : Word) : (s.setRng w).loadOpen = s.loadOpen := rfl
@[simp] theorem State.setRng_draws (s : State) (w : Word) : (s.setRng w).draws = s.draws := rfl
@[simp] theorem State.setRng_ports (s : State) (w : Word) : (s.setRng w).ports = s.ports := rfl
@[simp] theorem State.setRng_cfg (s : State) (w : Word) : (s.setRng w).cfg = s.cfg := rfl
@[simp] theorem State.getV_setRng (s : State) (w : Word) (r : RegIx) : (s.setRng w).getV r = s.getV r := rfl
@[simp] theorem State.pixel_setRng (s : State) (w : Word) (px : Fin 64) (py : Fin 32) :
    (s.setRng w).pixel px py = s.pixel px py := rfl
@[simp] theorem State.effAddr_setRng (s : State) (w : Word) (j : Nat) : (s.setRng w).effAddr j = s.effAddr j := rfl
@[simp] theorem State.memRead_setRng (s : State) (w : Word) (j : Nat) : (s.setRng w).memRead j = s.memRead j := rfl

/-! ## `countDraw` -/

@[simp] theorem State.countDraw_v (s : State) : s.countDraw.v = s.v := rfl
@[simp] theorem State.countDraw_index (s : State) : s.countDraw.index = s.index := rfl
@[simp] theorem State.countDraw_pc (s : State) : s.countDraw.pc = s.pc := rfl
@[simp] theorem State.countDraw_stack (s : State) : s.countDraw.stack = s.stack := rfl
@[simp] theorem State.countDraw_sp (s : State) : s.countDraw.sp = s.sp := rfl
@[simp] theorem State.countDraw_dt (s : State) : s.countDraw.dt = s.dt := rfl
@[simp] theorem State.countDraw_st (s : State) : s.countDraw.st = s.st := rfl
@[simp] theorem State.countDraw_dtLast (s : State) : s.countDraw.dtLast = s.dtLast := rfl
@[simp] theorem State.countDraw_stLast (s : State) : s.countDraw.stLast = s.stLast := rfl
@[simp] theorem State.countDraw_mem (s : State) : s.countDraw.mem = s.mem := rfl
@[simp] theorem State.countDraw_fb (s : State) : s.countDraw.fb = s.fb := rfl
@[simp] theorem State.countDraw_rng (s : State) : s.countDraw.rng = s.rng := rfl
@[simp] theorem State.countDraw_fault (s : State) : s.countDraw.fault = s.fault := rfl
@[simp] theorem State.countDraw_keyWait (s : State) : s.countDraw.keyWait = s.keyWait := rfl
@[simp] theorem State.countDraw_soundTriggers (s : State) : s.countDraw.soundTriggers = s.soundTriggers := rfl
@[simp] theorem State.countDraw_loadOpen (s : State) : s.countDraw.loadOpen = s.loadOpen := rfl
@[simp] theorem State.countDraw_draws (s : State) : s.countDraw.draws = s.draws + 1 := rfl
@[simp] theorem State.countDraw_ports (s : State) : s.countDraw.ports = s.ports := rfl
@[simp] theorem State.countDraw_cfg (s : State) : s.countDraw.cfg = s.cfg := rfl
@[simp] theorem State.getV_countDraw (s : State) (r : RegIx) : s.countDraw.getV r = s.getV r := rfl
@[simp] theorem State.pixel_countDraw (s : State) (px : Fin 64) (py : Fin 32) :
    s.countDraw.pixel px py = s.pixel px py := rfl
@[simp] theorem State.effAddr_countDraw (s : State) (j : Nat) : s.countDraw.effAddr j = s.effAddr j := rfl
@[simp] theorem State.memRead_countDraw (s : State) (j : Nat) : s.countDraw.memRead j = s.memRead j := rfl

/-! ## `setFb` -/

@[simp] theorem State.setFb_v (s : State) (f : Framebuffer) : (s.setFb f).v = s.v := rfl
@[simp] theorem State.setFb_index (s : State) (f : Framebuffer) : (s.setFb f).index = s.index := rfl
@[simp] theorem State.setFb_pc (s : State) (f : Framebuffer) : (s.setFb f).pc = s.pc := rfl
@[simp] theorem State.setFb_stack (s : State) (f : Framebuffer) : (s.setFb f).stack = s.stack := rfl
@[simp] theorem State.setFb_sp (s : State) (f : Framebuffer) : (s.setFb f).sp = s.sp := rfl
@[simp] theorem State.setFb_dt (s : State) (f : Framebuffer) : (s.setFb f).dt = s.dt := rfl
@[simp] theorem State.setFb_st (s : State) (f : Framebuffer) : (s.setFb f).st = s.st := rfl
@[simp] theorem State.setFb_dtLast (s : State) (f : Framebuffer) : (s.setFb f).dtLast = s.dtLast := rfl
@[simp] theorem State.setFb_stLast (s : State) (f : Framebuffer) : (s.setFb f).stLast = s.stLast := rfl
@[simp] theorem State.setFb_mem (s : State) (f : Framebuffer) : (s.setFb f).mem = s.mem := rfl
@[simp] theorem State.setFb_fb (s : State) (f : Framebuffer) : (s.setFb f).fb = f := rfl
@[simp] theorem State.setFb_rng (s : State) (f : Framebuffer) : (s.setFb f).rng = s.rng := rfl
@[simp] theorem State.setFb_fault (s : State) (f : Framebuffer) : (s.setFb f).fault = s.fault := rfl
@[simp] theorem State.setFb_keyWait (s : State) (f : Framebuffer) : (s.setFb f).keyWait = s.keyWait := rfl
@[simp] theorem State.setFb_soundTriggers (s : State) (f : Framebuffer) : (s.setFb f).soundTriggers = s.soundTriggers := rfl
@[simp] theorem State.setFb_loadOpen (s : State) (f : Framebuffer) : (s.setFb f).loadOpen = s.loadOpen := rfl
@[simp] theorem State.setFb_draws (s : State) (f : Framebuffer) : (s.setFb f).draws = s.draws := rfl
@[simp] theorem State.setFb_ports (s : State) (f : Framebuffer) : (s.setFb f).ports = s.ports := rfl
@[simp] theorem State.setFb_cfg (s : State) (f : Framebuffer) : (s.setFb f).cfg = s.cfg := rfl
@[simp] theorem State.getV_setFb (s : State) (f : Framebuffer) (r : RegIx) : (s.setFb f).getV r = s.getV r := rfl
@[simp] theorem State.effAddr_setFb (s : State) (f : Framebuffer) (j : Nat) : (s.setFb f).effAddr j = s.effAddr j := rfl
@[simp] theorem State.memRead_setFb (s : State) (f : Framebuffer) (j : Nat) : (s.setFb f).memRead j = s.memRead j := rfl

/-! ## `setMem` -/

@[simp] theorem State.setMem_v (s : State) (m : Memory) : (s.setMem m).v = s.v := rfl
@[simp] theorem State.setMem_index (s : State) (m : Memory) : (s.setMem m).index = s.index := rfl
@[simp] theorem State.setMem_pc (s : State) (m : Memory) : (s.setMem m).pc = s.pc := rfl
@[simp] theorem State.setMem_stack (s : State) (m : Memory) : (s.setMem m).stack = s.stack := rfl
@[simp] theorem State.setMem_sp (s : State) (m : Memory) : (s.setMem m).sp = s.sp := rfl
@[simp] theorem State.setMem_dt (s : State) (m : Memory) : (s.setMem m).dt = s.dt := rfl
@[simp] theorem State.setMem_st (s : State) (m : Memory) : (s.setMem m).st = s.st := rfl
@[simp] theorem State.setMem_dtLast (s : State) (m : Memory) : (s.setMem m).dtLast = s.dtLast := rfl
@[simp] theorem State.setMem_stLast (s : State) (m : Memory) : (s.setMem m).stLast = s.stLast := rfl
@[simp] theorem State.setMem_mem (s : State) (m : Memory) : (s.setMem m).mem = m := rfl
@[simp] theorem State.setMem_fb (s : State) (m : Memory) : (s.setMem m).fb = s.fb := rfl
@[simp] theorem State.setMem_rng (s : State) (m : Memory) : (s.setMem m).rng = s.rng := rfl
@[simp] theorem State.setMem_fault (s : State) (m : Memory) : (s.setMem m).fault = s.fault := rfl
@[simp] theorem State.setMem_keyWait (s : State) (m : Memory) : (s.setMem m).keyWait = s.keyWait := rfl
@[simp] theorem State.setMem_soundTriggers (s : State) (m : Memory) : (s.setMem m).soundTriggers = s.soundTriggers := rfl
@[simp] theorem State.setMem_loadOpen (s : State) (m : Memory) : (s.setMem m).loadOpen = s.loadOpen := rfl
@[simp] theorem State.setMem_draws (s : State) (m : Memory) : (s.setMem m).draws = s.draws := rfl
@[simp] theorem State.setMem_ports (s : State) (m : Memory) : (s.setMem m).ports = s.ports := rfl
@[simp] theorem State.setMem_cfg (s : State) (m : Memory) : (s.setMem m).cfg = s.cfg := rfl
@[simp] theorem State.getV_setMem (s : State) (m : Memory) (r : RegIx) : (s.setMem m).getV r = s.getV r := rfl
@[simp] theorem State.pixel_setMem (s : State) (m : Memory) (px : Fin 64) (py : Fin 32) :
    (s.setMem m).pixel px py = s.pixel px py := rfl
@[simp] theorem State.effAddr_setMem (s : State) (m : Memory) (j : Nat) : (s.setMem m).effAddr j = s.effAddr j := rfl

/-! ## `setStack` -/

@[simp] theorem State.setStack_v (s : State) (k : Vector Word 16) (d : Fin 17) : (s.setStack k d).v = s.v := rfl
@[simp] theorem State.setStack_index (s : State) (k : Vector Word 16) (d : Fin 17) : (s.setStack k d).index = s.index := rfl
@[simp] theorem State.setStack_pc (s : State) (k : Vector Word 16) (d : Fin 17) : (s.setStack k d).pc = s.pc := rfl
@[simp] theorem State.setStack_stack (s : State) (k : Vector Word 16) (d : Fin 17) : (s.setStack k d).stack = k := rfl
@[simp] theorem State.setStack_sp (s : State) (k : Vector Word 16) (d : Fin 17) : (s.setStack k d).sp = d := rfl
@[simp] theorem State.setStack_dt (s : State) (k : Vector Word 16) (d : Fin 17) : (s.setStack k d).dt = s.dt := rfl
@[simp] theorem State.setStack_st (s : State) (k : Vector Word 16) (d : Fin 17) : (s.setStack k d).st = s.st := rfl
@[simp] theorem State.setStack_dtLast (s : State) (k : Vector Word 16) (d : Fin 17) : (s.setStack k d).dtLast = s.dtLast := rfl
@[simp] theorem State.setStack_stLast (s : State) (k : Vector Word 16) (d : Fin 17) : (s.setStack k d).stLast = s.stLast := rfl
@[simp] theorem State.setStack_mem (s : State) (k : Vector Word 16) (d : Fin 17) : (s.setStack k d).mem = s.mem := rfl
@[simp] theorem State.setStack_fb (s : State) (k : Vector Word 16) (d : Fin 17) : (s.setStack k d).fb = s.fb := rfl
@[simp] theorem State.setStack_rng (s : State) (k : Vector Word 16) (d : Fin 17) : (s.setStack k d).rng = s.rng := rfl
@[simp] theorem State.setStack_fault (s : State) (k : Vector Word 16) (d : Fin 17) : (s.setStack k d).fault = s.fault := rfl
@[simp] theorem State.setStack_keyWait (s : State) (k : Vector Word 16) (d : Fin 17) : (s.setStack k d).keyWait = s.keyWait := rfl
@[simp] theorem State.setStack_soundTriggers (s : State) (k : Vector Word 16) (d : Fin 17) : (s.setStack k d).soundTriggers = s.soundTriggers := rfl
@[simp] theorem State.setStack_loadOpen (s : State) (k : Vector Word 16) (d : Fin 17) : (s.setStack k d).loadOpen = s.loadOpen := rfl
@[simp] theorem State.setStack_draws (s : State) (k : Vector Word 16) (d : Fin 17) : (s.setStack k d).draws = s.draws := rfl
@[simp] theorem State.setStack_ports (s : State) (k : Vector Word 16) (d : Fin 17) : (s.setStack k d).ports = s.ports := rfl
@[simp] theorem State.setStack_cfg (s : State) (k : Vector Word 16) (d : Fin 17) : (s.setStack k d).cfg = s.cfg := rfl
@[simp] theorem State.getV_setStack (s : State) (k : Vector Word 16) (d : Fin 17) (r : RegIx) : (s.setStack k d).getV r = s.getV r := rfl
@[simp] theorem State.pixel_setStack (s : State) (k : Vector Word 16) (d : Fin 17) (px : Fin 64) (py : Fin 32) :
    (s.setStack k d).pixel px py = s.pixel px py := rfl
@[simp] theorem State.effAddr_setStack (s : State) (k : Vector Word 16) (d : Fin 17) (j : Nat) : (s.setStack k d).effAddr j = s.effAddr j := rfl
@[simp] theorem State.memRead_setStack (s : State) (k : Vector Word 16) (d : Fin 17) (j : Nat) : (s.setStack k d).memRead j = s.memRead j := rfl

/-! ## `setFault` -/

@[simp] theorem State.setFault_v (s : State) (f : Option FaultRecord) : (s.setFault f).v = s.v := rfl
@[simp] theorem State.setFault_index (s : State) (f : Option FaultRecord) : (s.setFault f).index = s.index := rfl
@[simp] theorem State.setFault_pc (s : State) (f : Option FaultRecord) : (s.setFault f).pc = s.pc := rfl
@[simp] theorem State.setFault_stack (s : State) (f : Option FaultRecord) : (s.setFault f).stack = s.stack := rfl
@[simp] theorem State.setFault_sp (s : State) (f : Option FaultRecord) : (s.setFault f).sp = s.sp := rfl
@[simp] theorem State.setFault_dt (s : State) (f : Option FaultRecord) : (s.setFault f).dt = s.dt := rfl
@[simp] theorem State.setFault_st (s : State) (f : Option FaultRecord) : (s.setFault f).st = s.st := rfl
@[simp] theorem State.setFault_dtLast (s : State) (f : Option FaultRecord) : (s.setFault f).dtLast = s.dtLast := rfl
@[simp] theorem State.setFault_stLast (s : State) (f : Option FaultRecord) : (s.setFault f).stLast = s.stLast := rfl
@[simp] theorem State.setFault_mem (s : State) (f : Option FaultRecord) : (s.setFault f).mem = s.mem := rfl
@[simp] theorem State.setFault_fb (s : State) (f : Option FaultRecord) : (s.setFault f).fb = s.fb := rfl
@[simp] theorem State.setFault_rng (s : State) (f : Option FaultRecord) : (s.setFault f).rng = s.rng := rfl
@[simp] theorem State.setFault_fault (s : State) (f : Option FaultRecord) : (s.setFault f).fault = f := rfl
@[simp] theorem State.setFault_keyWait (s : State) (f : Option FaultRecord) : (s.setFault f).keyWait = s.keyWait := rfl
@[simp] theorem State.setFault_soundTriggers (s : State) (f : Option FaultRecord) : (s.setFault f).soundTriggers = s.soundTriggers := rfl
@[simp] theorem State.setFault_loadOpen (s : State) (f : Option FaultRecord) : (s.setFault f).loadOpen = s.loadOpen := rfl
@[simp] theorem State.setFault_draws (s : State) (f : Option FaultRecord) : (s.setFault f).draws = s.draws := rfl
@[simp] theorem State.setFault_ports (s : State) (f : Option FaultRecord) : (s.setFault f).ports = s.ports := rfl
@[simp] theorem State.setFault_cfg (s : State) (f : Option FaultRecord) : (s.setFault f).cfg = s.cfg := rfl
@[simp] theorem State.getV_setFault (s : State) (f : Option FaultRecord) (r : RegIx) : (s.setFault f).getV r = s.getV r := rfl
@[simp] theorem State.pixel_setFault (s : State) (f : Option FaultRecord) (px : Fin 64) (py : Fin 32) :
    (s.setFault f).pixel px py = s.pixel px py := rfl
@[simp] theorem State.effAddr_setFault (s : State) (f : Option FaultRecord) (j : Nat) : (s.setFault f).effAddr j = s.effAddr j := rfl
@[simp] theorem State.memRead_setFault (s : State) (f : Option FaultRecord) (j : Nat) : (s.setFault f).memRead j = s.memRead j := rfl

/-! ## `setKeyWait` -/

@[simp] theorem State.setKeyWait_v (s : State) (k : Option RegIx) : (s.setKeyWait k).v = s.v := rfl
@[simp] theorem State.setKeyWait_index (s : State) (k : Option RegIx) : (s.setKeyWait k).index = s.index := rfl
@[simp] theorem State.setKeyWait_pc (s : State) (k : Option RegIx) : (s.setKeyWait k).pc = s.pc := rfl
@[simp] theorem State.setKeyWait_stack (s : State) (k : Option RegIx) : (s.setKeyWait k).stack = s.stack := rfl
@[simp] theorem State.setKeyWait_sp (s : State) (k : Option RegIx) : (s.setKeyWait k).sp = s.sp := rfl
@[simp] theorem State.setKeyWait_dt (s : State) (k : Option RegIx) : (s.setKeyWait k).dt = s.dt := rfl
@[simp] theorem State.setKeyWait_st (s : State) (k : Option RegIx) : (s.setKeyWait k).st = s.st := rfl
@[simp] theorem State.setKeyWait_dtLast (s : State) (k : Option RegIx) : (s.setKeyWait k).dtLast = s.dtLast := rfl
@[simp] theorem State.setKeyWait_stLast (s : State) (k : Option RegIx) : (s.setKeyWait k).stLast = s.stLast := rfl
@[simp] theorem State.setKeyWait_mem (s : State) (k : Option RegIx) : (s.setKeyWait k).mem = s.mem := rfl
@[simp] theorem State.setKeyWait_fb (s : State) (k : Option RegIx) : (s.setKeyWait k).fb = s.fb := rfl
@[simp] theorem State.setKeyWait_rng (s : State) (k : Option RegIx) : (s.setKeyWait k).rng = s.rng := rfl
@[simp] theorem State.setKeyWait_fault (s : State) (k : Option RegIx) : (s.setKeyWait k).fault = s.fault := rfl
@[simp] theorem State.setKeyWait_keyWait (s : State) (k : Option RegIx) : (s.setKeyWait k).keyWait = k := rfl
@[simp] theorem State.setKeyWait_soundTriggers (s : State) (k : Option RegIx) : (s.setKeyWait k).soundTriggers = s.soundTriggers := rfl
@[simp] theorem State.setKeyWait_loadOpen (s : State) (k : Option RegIx) : (s.setKeyWait k).loadOpen = s.loadOpen := rfl
@[simp] theorem State.setKeyWait_draws (s : State) (k : Option RegIx) : (s.setKeyWait k).draws = s.draws := rfl
@[simp] theorem State.setKeyWait_ports (s : State) (k : Option RegIx) : (s.setKeyWait k).ports = s.ports := rfl
@[simp] theorem State.setKeyWait_cfg (s : State) (k : Option RegIx) : (s.setKeyWait k).cfg = s.cfg := rfl
@[simp] theorem State.getV_setKeyWait (s : State) (k : Option RegIx) (r : RegIx) : (s.setKeyWait k).getV r = s.getV r := rfl
@[simp] theorem State.pixel_setKeyWait (s : State) (k : Option RegIx) (px : Fin 64) (py : Fin 32) :
    (s.setKeyWait k).pixel px py = s.pixel px py := rfl
@[simp] theorem State.effAddr_setKeyWait (s : State) (k : Option RegIx) (j : Nat) : (s.setKeyWait k).effAddr j = s.effAddr j := rfl
@[simp] theorem State.memRead_setKeyWait (s : State) (k : Option RegIx) (j : Nat) : (s.setKeyWait k).memRead j = s.memRead j := rfl

/-! ## `emitSound` -/

@[simp] theorem State.emitSound_v (s : State) : s.emitSound.v = s.v := rfl
@[simp] theorem State.emitSound_index (s : State) : s.emitSound.index = s.index := rfl
@[simp] theorem State.emitSound_pc (s : State) : s.emitSound.pc = s.pc := rfl
@[simp] theorem State.emitSound_stack (s : State) : s.emitSound.stack = s.stack := rfl
@[simp] theorem State.emitSound_sp (s : State) : s.emitSound.sp = s.sp := rfl
@[simp] theorem State.emitSound_dt (s : State) : s.emitSound.dt = s.dt := rfl
@[simp] theorem State.emitSound_st (s : State) : s.emitSound.st = s.st := rfl
@[simp] theorem State.emitSound_dtLast (s : State) : s.emitSound.dtLast = s.dtLast := rfl
@[simp] theorem State.emitSound_stLast (s : State) : s.emitSound.stLast = s.stLast := rfl
@[simp] theorem State.emitSound_mem (s : State) : s.emitSound.mem = s.mem := rfl
@[simp] theorem State.emitSound_fb (s : State) : s.emitSound.fb = s.fb := rfl
@[simp] theorem State.emitSound_rng (s : State) : s.emitSound.rng = s.rng := rfl
@[simp] theorem State.emitSound_fault (s : State) : s.emitSound.fault = s.fault := rfl
@[simp] theorem State.emitSound_keyWait (s : State) : s.emitSound.keyWait = s.keyWait := rfl
@[simp] theorem State.emitSound_soundTriggers (s : State) : s.emitSound.soundTriggers = s.soundTriggers + 1 := rfl
@[simp] theorem State.emitSound_loadOpen (s : State) : s.emitSound.loadOpen = s.loadOpen := rfl
@[simp] theorem State.emitSound_draws (s : State) : s.emitSound.draws = s.draws := rfl
@[simp] theorem State.emitSound_ports (s : State) : s.emitSound.ports = s.ports := rfl
@[simp] theorem State.emitSound_cfg (s : State) : s.emitSound.cfg = s.cfg := rfl
@[simp] theorem State.getV_emitSound (s : State) (r : RegIx) : s.emitSound.getV r = s.getV r := rfl
@[simp] theorem State.pixel_emitSound (s : State) (px : Fin 64) (py : Fin 32) :
    s.emitSound.pixel px py = s.pixel px py := rfl
@[simp] theorem State.effAddr_emitSound (s : State) (j : Nat) : s.emitSound.effAddr j = s.effAddr j := rfl
@[simp] theorem State.memRead_emitSound (s : State) (j : Nat) : s.emitSound.memRead j = s.memRead j := rfl

/-! ## `closeLoad` -/

@[simp] theorem State.closeLoad_v (s : State) : s.closeLoad.v = s.v := rfl
@[simp] theorem State.closeLoad_index (s : State) : s.closeLoad.index = s.index := rfl
@[simp] theorem State.closeLoad_pc (s : State) : s.closeLoad.pc = s.pc := rfl
@[simp] theorem State.closeLoad_stack (s : State) : s.closeLoad.stack = s.stack := rfl
@[simp] theorem State.closeLoad_sp (s : State) : s.closeLoad.sp = s.sp := rfl
@[simp] theorem State.closeLoad_dt (s : State) : s.closeLoad.dt = s.dt := rfl
@[simp] theorem State.closeLoad_st (s : State) : s.closeLoad.st = s.st := rfl
@[simp] theorem State.closeLoad_dtLast (s : State) : s.closeLoad.dtLast = s.dtLast := rfl
@[simp] theorem State.closeLoad_stLast (s : State) : s.closeLoad.stLast = s.stLast := rfl
@[simp] theorem State.closeLoad_mem (s : State) : s.closeLoad.mem = s.mem := rfl
@[simp] theorem State.closeLoad_fb (s : State) : s.closeLoad.fb = s.fb := rfl
@[simp] theorem State.closeLoad_rng (s : State) : s.closeLoad.rng = s.rng := rfl
@[simp] theorem State.closeLoad_fault (s : State) : s.closeLoad.fault = s.fault := rfl
@[simp] theorem State.closeLoad_keyWait (s : State) : s.closeLoad.keyWait = s.keyWait := rfl
@[simp] theorem State.closeLoad_soundTriggers (s : State) : s.closeLoad.soundTriggers = s.soundTriggers := rfl
@[simp] theorem State.closeLoad_loadOpen (s : State) : s.closeLoad.loadOpen = false := rfl
@[simp] theorem State.closeLoad_draws (s : State) : s.closeLoad.draws = s.draws := rfl
@[simp] theorem State.closeLoad_ports (s : State) : s.closeLoad.ports = s.ports := rfl
@[simp] theorem State.closeLoad_cfg (s : State) : s.closeLoad.cfg = s.cfg := rfl
@[simp] theorem State.getV_closeLoad (s : State) (r : RegIx) : s.closeLoad.getV r = s.getV r := rfl
@[simp] theorem State.pixel_closeLoad (s : State) (px : Fin 64) (py : Fin 32) :
    s.closeLoad.pixel px py = s.pixel px py := rfl
@[simp] theorem State.effAddr_closeLoad (s : State) (j : Nat) : s.closeLoad.effAddr j = s.effAddr j := rfl
@[simp] theorem State.memRead_closeLoad (s : State) (j : Nat) : s.closeLoad.memRead j = s.memRead j := rfl

/-! ## `setPorts` -/

@[simp] theorem State.setPorts_v (s : State) (p : Ports) : (s.setPorts p).v = s.v := rfl
@[simp] theorem State.setPorts_index (s : State) (p : Ports) : (s.setPorts p).index = s.index := rfl
@[simp] theorem State.setPorts_pc (s : State) (p : Ports) : (s.setPorts p).pc = s.pc := rfl
@[simp] theorem State.setPorts_stack (s : State) (p : Ports) : (s.setPorts p).stack = s.stack := rfl
@[simp] theorem State.setPorts_sp (s : State) (p : Ports) : (s.setPorts p).sp = s.sp := rfl
@[simp] theorem State.setPorts_dt (s : State) (p : Ports) : (s.setPorts p).dt = s.dt := rfl
@[simp] theorem State.setPorts_st (s : State) (p : Ports) : (s.setPorts p).st = s.st := rfl
@[simp] theorem State.setPorts_dtLast (s : State) (p : Ports) : (s.setPorts p).dtLast = s.dtLast := rfl
@[simp] theorem State.setPorts_stLast (s : State) (p : Ports) : (s.setPorts p).stLast = s.stLast := rfl
@[simp] theorem State.setPorts_mem (s : State) (p : Ports) : (s.setPorts p).mem = s.mem := rfl
@[simp] theorem State.setPorts_fb (s : State) (p : Ports) : (s.setPorts p).fb = s.fb := rfl
@[simp] theorem State.setPorts_rng (s : State) (p : Ports) : (s.setPorts p).rng = s.rng := rfl
@[simp] theorem State.setPorts_fault (s : State) (p : Ports) : (s.setPorts p).fault = s.fault := rfl
@[simp] theorem State.setPorts_keyWait (s : State) (p : Ports) : (s.setPorts p).keyWait = s.keyWait := rfl
@[simp] theorem State.setPorts_soundTriggers (s : State) (p : Ports) : (s.setPorts p).soundTriggers = s.soundTriggers := rfl
@[simp] theorem State.setPorts_loadOpen (s : State) (p : Ports) : (s.setPorts p).loadOpen = s.loadOpen := rfl
@[simp] theorem State.setPorts_draws (s : State) (p : Ports) : (s.setPorts p).draws = s.draws := rfl
@[simp] theorem State.setPorts_ports (s : State) (p : Ports) : (s.setPorts p).ports = p := rfl
@[simp] theorem State.setPorts_cfg (s : State) (p : Ports) : (s.setPorts p).cfg = s.cfg := rfl
@[simp] theorem State.getV_setPorts (s : State) (p : Ports) (r : RegIx) : (s.setPorts p).getV r = s.getV r := rfl
@[simp] theorem State.pixel_setPorts (s : State) (p : Ports) (px : Fin 64) (py : Fin 32) :
    (s.setPorts p).pixel px py = s.pixel px py := rfl
@[simp] theorem State.effAddr_setPorts (s : State) (p : Ports) (j : Nat) : (s.setPorts p).effAddr j = s.effAddr j := rfl
@[simp] theorem State.memRead_setPorts (s : State) (p : Ports) (j : Nat) : (s.setPorts p).memRead j = s.memRead j := rfl

/-! ## `raise` -/

@[simp] theorem State.raise_v (s : State) (c : Fault) (a w : Word) (e : Nat) : (s.raise c a w e).v = s.v := rfl
@[simp] theorem State.raise_index (s : State) (c : Fault) (a w : Word) (e : Nat) : (s.raise c a w e).index = s.index := rfl
@[simp] theorem State.raise_pc (s : State) (c : Fault) (a w : Word) (e : Nat) : (s.raise c a w e).pc = s.pc := rfl
@[simp] theorem State.raise_stack (s : State) (c : Fault) (a w : Word) (e : Nat) : (s.raise c a w e).stack = s.stack := rfl
@[simp] theorem State.raise_sp (s : State) (c : Fault) (a w : Word) (e : Nat) : (s.raise c a w e).sp = s.sp := rfl
@[simp] theorem State.raise_dt (s : State) (c : Fault) (a w : Word) (e : Nat) : (s.raise c a w e).dt = s.dt := rfl
@[simp] theorem State.raise_st (s : State) (c : Fault) (a w : Word) (e : Nat) : (s.raise c a w e).st = s.st := rfl
@[simp] theorem State.raise_dtLast (s : State) (c : Fault) (a w : Word) (e : Nat) : (s.raise c a w e).dtLast = s.dtLast := rfl
@[simp] theorem State.raise_stLast (s : State) (c : Fault) (a w : Word) (e : Nat) : (s.raise c a w e).stLast = s.stLast := rfl
@[simp] theorem State.raise_mem (s : State) (c : Fault) (a w : Word) (e : Nat) : (s.raise c a w e).mem = s.mem := rfl
@[simp] theorem State.raise_fb (s : State) (c : Fault) (a w : Word) (e : Nat) : (s.raise c a w e).fb = s.fb := rfl
@[simp] theorem State.raise_rng (s : State) (c : Fault) (a w : Word) (e : Nat) : (s.raise c a w e).rng = s.rng := rfl
@[simp] theorem State.raise_fault (s : State) (c : Fault) (a w : Word) (e : Nat) : (s.raise c a w e).fault = some { cause := c, pc := a, opcode := w, ea := BitVec.ofNat 17 e } := rfl
@[simp] theorem State.raise_keyWait (s : State) (c : Fault) (a w : Word) (e : Nat) : (s.raise c a w e).keyWait = s.keyWait := rfl
@[simp] theorem State.raise_soundTriggers (s : State) (c : Fault) (a w : Word) (e : Nat) : (s.raise c a w e).soundTriggers = s.soundTriggers := rfl
@[simp] theorem State.raise_loadOpen (s : State) (c : Fault) (a w : Word) (e : Nat) : (s.raise c a w e).loadOpen = s.loadOpen := rfl
@[simp] theorem State.raise_draws (s : State) (c : Fault) (a w : Word) (e : Nat) : (s.raise c a w e).draws = s.draws := rfl
@[simp] theorem State.raise_ports (s : State) (c : Fault) (a w : Word) (e : Nat) : (s.raise c a w e).ports = s.ports := rfl
@[simp] theorem State.raise_cfg (s : State) (c : Fault) (a w : Word) (e : Nat) : (s.raise c a w e).cfg = s.cfg := rfl
@[simp] theorem State.getV_raise (s : State) (c : Fault) (a w : Word) (e : Nat) (r : RegIx) : (s.raise c a w e).getV r = s.getV r := rfl
@[simp] theorem State.pixel_raise (s : State) (c : Fault) (a w : Word) (e : Nat) (px : Fin 64) (py : Fin 32) :
    (s.raise c a w e).pixel px py = s.pixel px py := rfl
@[simp] theorem State.effAddr_raise (s : State) (c : Fault) (a w : Word) (e : Nat) (j : Nat) : (s.raise c a w e).effAddr j = s.effAddr j := rfl
@[simp] theorem State.memRead_raise (s : State) (c : Fault) (a w : Word) (e : Nat) (j : Nat) : (s.raise c a w e).memRead j = s.memRead j := rfl

/-! ## `raiseExec` -/

@[simp] theorem State.raiseExec_v (s : State) (c : Fault) (w : Word) (e : Nat) : (s.raiseExec c w e).v = s.v := rfl
@[simp] theorem State.raiseExec_index (s : State) (c : Fault) (w : Word) (e : Nat) : (s.raiseExec c w e).index = s.index := rfl
@[simp] theorem State.raiseExec_pc (s : State) (c : Fault) (w : Word) (e : Nat) : (s.raiseExec c w e).pc = s.pc := rfl
@[simp] theorem State.raiseExec_stack (s : State) (c : Fault) (w : Word) (e : Nat) : (s.raiseExec c w e).stack = s.stack := rfl
@[simp] theorem State.raiseExec_sp (s : State) (c : Fault) (w : Word) (e : Nat) : (s.raiseExec c w e).sp = s.sp := rfl
@[simp] theorem State.raiseExec_dt (s : State) (c : Fault) (w : Word) (e : Nat) : (s.raiseExec c w e).dt = s.dt := rfl
@[simp] theorem State.raiseExec_st (s : State) (c : Fault) (w : Word) (e : Nat) : (s.raiseExec c w e).st = s.st := rfl
@[simp] theorem State.raiseExec_dtLast (s : State) (c : Fault) (w : Word) (e : Nat) : (s.raiseExec c w e).dtLast = s.dtLast := rfl
@[simp] theorem State.raiseExec_stLast (s : State) (c : Fault) (w : Word) (e : Nat) : (s.raiseExec c w e).stLast = s.stLast := rfl
@[simp] theorem State.raiseExec_mem (s : State) (c : Fault) (w : Word) (e : Nat) : (s.raiseExec c w e).mem = s.mem := rfl
@[simp] theorem State.raiseExec_fb (s : State) (c : Fault) (w : Word) (e : Nat) : (s.raiseExec c w e).fb = s.fb := rfl
@[simp] theorem State.raiseExec_rng (s : State) (c : Fault) (w : Word) (e : Nat) : (s.raiseExec c w e).rng = s.rng := rfl
@[simp] theorem State.raiseExec_fault (s : State) (c : Fault) (w : Word) (e : Nat) : (s.raiseExec c w e).fault = some { cause := c, pc := s.pc - 2#16, opcode := w, ea := BitVec.ofNat 17 e } := rfl
@[simp] theorem State.raiseExec_keyWait (s : State) (c : Fault) (w : Word) (e : Nat) : (s.raiseExec c w e).keyWait = s.keyWait := rfl
@[simp] theorem State.raiseExec_soundTriggers (s : State) (c : Fault) (w : Word) (e : Nat) : (s.raiseExec c w e).soundTriggers = s.soundTriggers := rfl
@[simp] theorem State.raiseExec_loadOpen (s : State) (c : Fault) (w : Word) (e : Nat) : (s.raiseExec c w e).loadOpen = s.loadOpen := rfl
@[simp] theorem State.raiseExec_draws (s : State) (c : Fault) (w : Word) (e : Nat) : (s.raiseExec c w e).draws = s.draws := rfl
@[simp] theorem State.raiseExec_ports (s : State) (c : Fault) (w : Word) (e : Nat) : (s.raiseExec c w e).ports = s.ports := rfl
@[simp] theorem State.raiseExec_cfg (s : State) (c : Fault) (w : Word) (e : Nat) : (s.raiseExec c w e).cfg = s.cfg := rfl
@[simp] theorem State.getV_raiseExec (s : State) (c : Fault) (w : Word) (e : Nat) (r : RegIx) : (s.raiseExec c w e).getV r = s.getV r := rfl
@[simp] theorem State.pixel_raiseExec (s : State) (c : Fault) (w : Word) (e : Nat) (px : Fin 64) (py : Fin 32) :
    (s.raiseExec c w e).pixel px py = s.pixel px py := rfl
@[simp] theorem State.effAddr_raiseExec (s : State) (c : Fault) (w : Word) (e : Nat) (j : Nat) : (s.raiseExec c w e).effAddr j = s.effAddr j := rfl
@[simp] theorem State.memRead_raiseExec (s : State) (c : Fault) (w : Word) (e : Nat) (j : Nat) : (s.raiseExec c w e).memRead j = s.memRead j := rfl

/-! ## `advance` -/

@[simp] theorem State.advance_v (s : State) : s.advance.v = s.v := rfl
@[simp] theorem State.advance_index (s : State) : s.advance.index = s.index := rfl
@[simp] theorem State.advance_pc (s : State) : s.advance.pc = s.pc + 2#16 := rfl
@[simp] theorem State.advance_stack (s : State) : s.advance.stack = s.stack := rfl
@[simp] theorem State.advance_sp (s : State) : s.advance.sp = s.sp := rfl
@[simp] theorem State.advance_dt (s : State) : s.advance.dt = s.dt := rfl
@[simp] theorem State.advance_st (s : State) : s.advance.st = s.st := rfl
@[simp] theorem State.advance_dtLast (s : State) : s.advance.dtLast = s.dtLast := rfl
@[simp] theorem State.advance_stLast (s : State) : s.advance.stLast = s.stLast := rfl
@[simp] theorem State.advance_mem (s : State) : s.advance.mem = s.mem := rfl
@[simp] theorem State.advance_fb (s : State) : s.advance.fb = s.fb := rfl
@[simp] theorem State.advance_rng (s : State) : s.advance.rng = s.rng := rfl
@[simp] theorem State.advance_fault (s : State) : s.advance.fault = s.fault := rfl
@[simp] theorem State.advance_keyWait (s : State) : s.advance.keyWait = s.keyWait := rfl
@[simp] theorem State.advance_soundTriggers (s : State) : s.advance.soundTriggers = s.soundTriggers := rfl
@[simp] theorem State.advance_loadOpen (s : State) : s.advance.loadOpen = s.loadOpen := rfl
@[simp] theorem State.advance_draws (s : State) : s.advance.draws = s.draws := rfl
@[simp] theorem State.advance_ports (s : State) : s.advance.ports = s.ports := rfl
@[simp] theorem State.advance_cfg (s : State) : s.advance.cfg = s.cfg := rfl
@[simp] theorem State.getV_advance (s : State) (r : RegIx) : s.advance.getV r = s.getV r := rfl
@[simp] theorem State.pixel_advance (s : State) (px : Fin 64) (py : Fin 32) :
    s.advance.pixel px py = s.pixel px py := rfl
@[simp] theorem State.effAddr_advance (s : State) (j : Nat) : s.advance.effAddr j = s.effAddr j := rfl
@[simp] theorem State.memRead_advance (s : State) (j : Nat) : s.advance.memRead j = s.memRead j := rfl

/-! ## The registers -/

theorem RegIx.toNat_lt (x : RegIx) : x.toNat < 16 := x.isLt

theorem State.getV_setV (s : State) (x y : RegIx) (b : Byte) :
    (s.setV x b).getV y = if y = x then b else s.getV y := by
  unfold State.getV State.setV
  by_cases h : y = x
  · subst h; simp
  · have h' : x.toNat ≠ y.toNat := fun e => h (BitVec.eq_of_toNat_eq e.symm)
    simp [h, h']

@[simp] theorem State.getV_setV_self (s : State) (x : RegIx) (b : Byte) : (s.setV x b).getV x = b := by
  simp [State.getV_setV]

@[simp] theorem State.getV_setV_ne (s : State) {x y : RegIx} (b : Byte) (h : y ≠ x) :
    (s.setV x b).getV y = s.getV y := by
  simp [State.getV_setV, h]

/-! ## The flag write -/

theorem State.getV_setWithFlag (s : State) (x y : RegIx) (r : Byte) (c : Bool) :
    (s.setWithFlag x r c).getV y = if y = vf then flagByte c else if y = x then r else s.getV y := by
  simp [State.setWithFlag, State.getV_setV]

@[simp] theorem State.setWithFlag_index (s : State) (x : RegIx) (r : Byte) (c : Bool) :
    (s.setWithFlag x r c).index = s.index := rfl
@[simp] theorem State.setWithFlag_pc (s : State) (x : RegIx) (r : Byte) (c : Bool) :
    (s.setWithFlag x r c).pc = s.pc := rfl
@[simp] theorem State.setWithFlag_stack (s : State) (x : RegIx) (r : Byte) (c : Bool) :
    (s.setWithFlag x r c).stack = s.stack := rfl
@[simp] theorem State.setWithFlag_sp (s : State) (x : RegIx) (r : Byte) (c : Bool) :
    (s.setWithFlag x r c).sp = s.sp := rfl
@[simp] theorem State.setWithFlag_dt (s : State) (x : RegIx) (r : Byte) (c : Bool) :
    (s.setWithFlag x r c).dt = s.dt := rfl
@[simp] theorem State.setWithFlag_st (s : State) (x : RegIx) (r : Byte) (c : Bool) :
    (s.setWithFlag x r c).st = s.st := rfl
@[simp] theorem State.setWithFlag_dtLast (s : State) (x : RegIx) (r : Byte) (c : Bool) :
    (s.setWithFlag x r c).dtLast = s.dtLast := rfl
@[simp] theorem State.setWithFlag_stLast (s : State) (x : RegIx) (r : Byte) (c : Bool) :
    (s.setWithFlag x r c).stLast = s.stLast := rfl
@[simp] theorem State.setWithFlag_mem (s : State) (x : RegIx) (r : Byte) (c : Bool) :
    (s.setWithFlag x r c).mem = s.mem := rfl
@[simp] theorem State.setWithFlag_fb (s : State) (x : RegIx) (r : Byte) (c : Bool) :
    (s.setWithFlag x r c).fb = s.fb := rfl
@[simp] theorem State.setWithFlag_rng (s : State) (x : RegIx) (r : Byte) (c : Bool) :
    (s.setWithFlag x r c).rng = s.rng := rfl
@[simp] theorem State.setWithFlag_fault (s : State) (x : RegIx) (r : Byte) (c : Bool) :
    (s.setWithFlag x r c).fault = s.fault := rfl
@[simp] theorem State.setWithFlag_keyWait (s : State) (x : RegIx) (r : Byte) (c : Bool) :
    (s.setWithFlag x r c).keyWait = s.keyWait := rfl
@[simp] theorem State.setWithFlag_soundTriggers (s : State) (x : RegIx) (r : Byte) (c : Bool) :
    (s.setWithFlag x r c).soundTriggers = s.soundTriggers := rfl
@[simp] theorem State.setWithFlag_loadOpen (s : State) (x : RegIx) (r : Byte) (c : Bool) :
    (s.setWithFlag x r c).loadOpen = s.loadOpen := rfl
@[simp] theorem State.setWithFlag_draws (s : State) (x : RegIx) (r : Byte) (c : Bool) :
    (s.setWithFlag x r c).draws = s.draws := rfl
@[simp] theorem State.setWithFlag_ports (s : State) (x : RegIx) (r : Byte) (c : Bool) :
    (s.setWithFlag x r c).ports = s.ports := rfl
@[simp] theorem State.setWithFlag_cfg (s : State) (x : RegIx) (r : Byte) (c : Bool) :
    (s.setWithFlag x r c).cfg = s.cfg := rfl

/-! ## The skip -/

@[simp] theorem State.skipIf_pc (s : State) (c : Bool) :
    (s.skipIf c).pc = if c then s.pc + 2#16 else s.pc := by cases c <;> rfl

@[simp] theorem State.skipIf_v (s : State) (c : Bool) : (s.skipIf c).v = s.v := by cases c <;> rfl
@[simp] theorem State.skipIf_index (s : State) (c : Bool) : (s.skipIf c).index = s.index := by cases c <;> rfl
@[simp] theorem State.skipIf_stack (s : State) (c : Bool) : (s.skipIf c).stack = s.stack := by cases c <;> rfl
@[simp] theorem State.skipIf_sp (s : State) (c : Bool) : (s.skipIf c).sp = s.sp := by cases c <;> rfl
@[simp] theorem State.skipIf_dt (s : State) (c : Bool) : (s.skipIf c).dt = s.dt := by cases c <;> rfl
@[simp] theorem State.skipIf_st (s : State) (c : Bool) : (s.skipIf c).st = s.st := by cases c <;> rfl
@[simp] theorem State.skipIf_dtLast (s : State) (c : Bool) : (s.skipIf c).dtLast = s.dtLast := by cases c <;> rfl
@[simp] theorem State.skipIf_stLast (s : State) (c : Bool) : (s.skipIf c).stLast = s.stLast := by cases c <;> rfl
@[simp] theorem State.skipIf_mem (s : State) (c : Bool) : (s.skipIf c).mem = s.mem := by cases c <;> rfl
@[simp] theorem State.skipIf_fb (s : State) (c : Bool) : (s.skipIf c).fb = s.fb := by cases c <;> rfl
@[simp] theorem State.skipIf_rng (s : State) (c : Bool) : (s.skipIf c).rng = s.rng := by cases c <;> rfl
@[simp] theorem State.skipIf_fault (s : State) (c : Bool) : (s.skipIf c).fault = s.fault := by cases c <;> rfl
@[simp] theorem State.skipIf_keyWait (s : State) (c : Bool) : (s.skipIf c).keyWait = s.keyWait := by cases c <;> rfl
@[simp] theorem State.skipIf_soundTriggers (s : State) (c : Bool) : (s.skipIf c).soundTriggers = s.soundTriggers := by cases c <;> rfl
@[simp] theorem State.skipIf_loadOpen (s : State) (c : Bool) : (s.skipIf c).loadOpen = s.loadOpen := by cases c <;> rfl
@[simp] theorem State.skipIf_draws (s : State) (c : Bool) : (s.skipIf c).draws = s.draws := by cases c <;> rfl
@[simp] theorem State.skipIf_ports (s : State) (c : Bool) : (s.skipIf c).ports = s.ports := by cases c <;> rfl
@[simp] theorem State.skipIf_cfg (s : State) (c : Bool) : (s.skipIf c).cfg = s.cfg := by cases c <;> rfl
@[simp] theorem State.getV_skipIf (s : State) (c : Bool) (r : RegIx) : (s.skipIf c).getV r = s.getV r := by
  cases c <;> rfl
@[simp] theorem State.pixel_skipIf (s : State) (c : Bool) (px : Fin 64) (py : Fin 32) :
    (s.skipIf c).pixel px py = s.pixel px py := by
  cases c <;> rfl

/-! ## Pixels -/

theorem State.pixel_setPixel (s : State) (px qx : Fin 64) (py qy : Fin 32) (b : Bool) :
    (s.setPixel px py b).pixel qx qy = if qx = px ∧ qy = py then b else s.pixel qx qy := by
  unfold State.pixel State.setPixel
  simp only [State.setFb_fb]
  by_cases hy : qy = py
  · subst hy
    by_cases hx : qx = px
    · subst hx; simp
    · have h' : px.val ≠ qx.val := fun e => hx (Fin.ext e.symm)
      simp [hx, h']
  · have h' : py.val ≠ qy.val := fun e => hy (Fin.ext e.symm)
    simp [hy, h']

@[simp] theorem State.setPixel_v (s : State) (px : Fin 64) (py : Fin 32) (b : Bool) :
    (s.setPixel px py b).v = s.v := rfl
@[simp] theorem State.setPixel_index (s : State) (px : Fin 64) (py : Fin 32) (b : Bool) :
    (s.setPixel px py b).index = s.index := rfl
@[simp] theorem State.setPixel_pc (s : State) (px : Fin 64) (py : Fin 32) (b : Bool) :
    (s.setPixel px py b).pc = s.pc := rfl
@[simp] theorem State.setPixel_stack (s : State) (px : Fin 64) (py : Fin 32) (b : Bool) :
    (s.setPixel px py b).stack = s.stack := rfl
@[simp] theorem State.setPixel_sp (s : State) (px : Fin 64) (py : Fin 32) (b : Bool) :
    (s.setPixel px py b).sp = s.sp := rfl
@[simp] theorem State.setPixel_dt (s : State) (px : Fin 64) (py : Fin 32) (b : Bool) :
    (s.setPixel px py b).dt = s.dt := rfl
@[simp] theorem State.setPixel_st (s : State) (px : Fin 64) (py : Fin 32) (b : Bool) :
    (s.setPixel px py b).st = s.st := rfl
@[simp] theorem State.setPixel_dtLast (s : State) (px : Fin 64) (py : Fin 32) (b : Bool) :
    (s.setPixel px py b).dtLast = s.dtLast := rfl
@[simp] theorem State.setPixel_stLast (s : State) (px : Fin 64) (py : Fin 32) (b : Bool) :
    (s.setPixel px py b).stLast = s.stLast := rfl
@[simp] theorem State.setPixel_mem (s : State) (px : Fin 64) (py : Fin 32) (b : Bool) :
    (s.setPixel px py b).mem = s.mem := rfl
@[simp] theorem State.setPixel_rng (s : State) (px : Fin 64) (py : Fin 32) (b : Bool) :
    (s.setPixel px py b).rng = s.rng := rfl
@[simp] theorem State.setPixel_fault (s : State) (px : Fin 64) (py : Fin 32) (b : Bool) :
    (s.setPixel px py b).fault = s.fault := rfl
@[simp] theorem State.setPixel_keyWait (s : State) (px : Fin 64) (py : Fin 32) (b : Bool) :
    (s.setPixel px py b).keyWait = s.keyWait := rfl
@[simp] theorem State.setPixel_soundTriggers (s : State) (px : Fin 64) (py : Fin 32) (b : Bool) :
    (s.setPixel px py b).soundTriggers = s.soundTriggers := rfl
@[simp] theorem State.setPixel_loadOpen (s : State) (px : Fin 64) (py : Fin 32) (b : Bool) :
    (s.setPixel px py b).loadOpen = s.loadOpen := rfl
@[simp] theorem State.setPixel_draws (s : State) (px : Fin 64) (py : Fin 32) (b : Bool) :
    (s.setPixel px py b).draws = s.draws := rfl
@[simp] theorem State.setPixel_ports (s : State) (px : Fin 64) (py : Fin 32) (b : Bool) :
    (s.setPixel px py b).ports = s.ports := rfl
@[simp] theorem State.setPixel_cfg (s : State) (px : Fin 64) (py : Fin 32) (b : Bool) :
    (s.setPixel px py b).cfg = s.cfg := rfl
@[simp] theorem State.getV_setPixel (s : State) (px : Fin 64) (py : Fin 32) (b : Bool) (r : RegIx) :
    (s.setPixel px py b).getV r = s.getV r := rfl

end Sys2Proof.Machine
end

