-- ==== Sys2Proof/Laws/Ops.lean ====
section
/-! SUPPORT. One lemma per shared operation that says everything it can do; proofs cite these and do not unfold the
operation. -/

namespace Sys2Proof.Machine

/-! ## Checked accesses -/

theorem State.memRead_lt (s : State) {a : Nat} (h : a < 4096) : s.memRead a = some (s.mem.read a) := by
  simp [State.memRead, h]

theorem State.memRead_ge (s : State) {a : Nat} (h : 4096 ≤ a) : s.memRead a = none := by
  simp [State.memRead, Nat.not_lt.2 h]

theorem State.memWrite_lt (s : State) {a : Nat} (b : Byte) (h : a < 4096) :
    s.memWrite a b = some (s.setMem (s.mem.write a b)) := by
  simp [State.memWrite, h]

theorem State.memWrite_ge (s : State) {a : Nat} (b : Byte) (h : 4096 ≤ a) : s.memWrite a b = none := by
  simp [State.memWrite, Nat.not_lt.2 h]

/-! ## The call stack -/

theorem State.push_of_lt (s : State) (w : Word) (h : s.sp.val < 16) :
    s.push w = some (s.setStack (s.stack.set s.sp.val w h) ⟨s.sp.val + 1, by omega⟩) := by
  simp [State.push, h]

theorem State.push_full (s : State) (w : Word) (h : s.sp.val = 16) : s.push w = none := by
  simp [State.push, h]

theorem State.pop_of_pos (s : State) (h : 0 < s.sp.val) :
    s.pop = some (s.stack[s.sp.val - 1]'(by omega), s.setStack s.stack ⟨s.sp.val - 1, by omega⟩) := by
  simp [State.pop, h]

theorem State.pop_empty (s : State) (h : s.sp.val = 0) : s.pop = none := by
  simp [State.pop, h]

/-! ## Byte stores -/

/-- A store whose bytes all fit writes them and changes nothing else. -/
theorem State.storeSeq_fits (s : State) (w : Word) (a : Nat) (bs : List Byte) (h : a + bs.length ≤ 4096) :
    s.storeSeq w a bs = s.setMem (s.mem.writeBytes a bs) := by
  induction bs generalizing s a with
  | nil => rfl
  | cons b bs ih =>
    simp only [List.length_cons] at h
    rw [State.storeSeq, State.memWrite_lt s b (by omega)]
    simp only []
    rw [ih _ _ (by omega)]
    rfl

/-- A store that runs past the last address writes the bytes that fit, then raises at the first that does not. -/
theorem State.storeSeq_overflows (s : State) (w : Word) (a : Nat) (bs : List Byte) (hb : bs ≠ [])
    (h : 4096 < a + bs.length) :
    s.storeSeq w a bs =
      (s.setMem (s.mem.writeBytes a (bs.take (4096 - a)))).raiseExec .memoryOutOfRange w (max a 4096) := by
  induction bs generalizing s a with
  | nil => exact absurd rfl hb
  | cons b bs ih =>
    simp only [List.length_cons] at h
    by_cases ha : a < 4096
    · rw [State.storeSeq, State.memWrite_lt s b ha]
      have hne : bs ≠ [] := fun e => by simp [e] at h; omega
      have hsucc : 4096 - a = (4096 - (a + 1)) + 1 := by omega
      simp only []
      rw [ih _ _ hne (by omega), hsucc, List.take_succ_cons,
        show max (a + 1) 4096 = 4096 by omega, show max a 4096 = 4096 by omega]
      rfl
    · rw [State.storeSeq, State.memWrite_ge s b (by omega), show 4096 - a = 0 by omega,
        show max a 4096 = a by omega]
      rfl

/-! ## Register loads -/

/-- A load changes registers and the fault record only. -/
theorem State.loadSeq_fields (s : State) (w : Word) (a i n : Nat) :
    s.loadSeq w a i n = { s with v := (s.loadSeq w a i n).v, fault := (s.loadSeq w a i n).fault } := by
  induction n generalizing s a i with
  | zero => rfl
  | succ n ih =>
    by_cases ha : a < 4096
    · rw [State.loadSeq, State.memRead_lt s ha]
      exact (ih _ _ _).trans rfl
    · rw [State.loadSeq, State.memRead_ge s (by omega)]
      rfl

@[simp] theorem State.loadSeq_index (s : State) (w : Word) (a i n : Nat) : (s.loadSeq w a i n).index = s.index := by
  rw [State.loadSeq_fields]
@[simp] theorem State.loadSeq_pc (s : State) (w : Word) (a i n : Nat) : (s.loadSeq w a i n).pc = s.pc := by
  rw [State.loadSeq_fields]
@[simp] theorem State.loadSeq_stack (s : State) (w : Word) (a i n : Nat) : (s.loadSeq w a i n).stack = s.stack := by
  rw [State.loadSeq_fields]
@[simp] theorem State.loadSeq_sp (s : State) (w : Word) (a i n : Nat) : (s.loadSeq w a i n).sp = s.sp := by
  rw [State.loadSeq_fields]
@[simp] theorem State.loadSeq_dt (s : State) (w : Word) (a i n : Nat) : (s.loadSeq w a i n).dt = s.dt := by
  rw [State.loadSeq_fields]
@[simp] theorem State.loadSeq_st (s : State) (w : Word) (a i n : Nat) : (s.loadSeq w a i n).st = s.st := by
  rw [State.loadSeq_fields]
@[simp] theorem State.loadSeq_dtLast (s : State) (w : Word) (a i n : Nat) : (s.loadSeq w a i n).dtLast = s.dtLast := by
  rw [State.loadSeq_fields]
@[simp] theorem State.loadSeq_stLast (s : State) (w : Word) (a i n : Nat) : (s.loadSeq w a i n).stLast = s.stLast := by
  rw [State.loadSeq_fields]
@[simp] theorem State.loadSeq_mem (s : State) (w : Word) (a i n : Nat) : (s.loadSeq w a i n).mem = s.mem := by
  rw [State.loadSeq_fields]
@[simp] theorem State.loadSeq_fb (s : State) (w : Word) (a i n : Nat) : (s.loadSeq w a i n).fb = s.fb := by
  rw [State.loadSeq_fields]
@[simp] theorem State.loadSeq_rng (s : State) (w : Word) (a i n : Nat) : (s.loadSeq w a i n).rng = s.rng := by
  rw [State.loadSeq_fields]
@[simp] theorem State.loadSeq_keyWait (s : State) (w : Word) (a i n : Nat) : (s.loadSeq w a i n).keyWait = s.keyWait := by
  rw [State.loadSeq_fields]
@[simp] theorem State.loadSeq_soundTriggers (s : State) (w : Word) (a i n : Nat) : (s.loadSeq w a i n).soundTriggers = s.soundTriggers := by
  rw [State.loadSeq_fields]
@[simp] theorem State.loadSeq_loadOpen (s : State) (w : Word) (a i n : Nat) : (s.loadSeq w a i n).loadOpen = s.loadOpen := by
  rw [State.loadSeq_fields]
@[simp] theorem State.loadSeq_draws (s : State) (w : Word) (a i n : Nat) : (s.loadSeq w a i n).draws = s.draws := by
  rw [State.loadSeq_fields]
@[simp] theorem State.loadSeq_ports (s : State) (w : Word) (a i n : Nat) : (s.loadSeq w a i n).ports = s.ports := by
  rw [State.loadSeq_fields]
@[simp] theorem State.loadSeq_cfg (s : State) (w : Word) (a i n : Nat) : (s.loadSeq w a i n).cfg = s.cfg := by
  rw [State.loadSeq_fields]

/-- The record after a load: unchanged when every byte is in range, else the first address out of range. -/
theorem State.loadSeq_fault (s : State) (w : Word) (a i n : Nat) :
    (s.loadSeq w a i n).fault =
      if a + n ≤ 4096 ∨ n = 0 then s.fault
      else some ⟨.memoryOutOfRange, s.pc - 2#16, w, BitVec.ofNat 17 (max a 4096)⟩ := by
  induction n generalizing s a i with
  | zero => simp [State.loadSeq]
  | succ n ih =>
    by_cases ha : a < 4096
    · rw [State.loadSeq, State.memRead_lt s ha]
      simp only []
      rw [ih]
      have hmax : max (a + 1) 4096 = max a 4096 := by omega
      simp only [State.setV_fault, State.setV_pc, hmax]
      have hiff : (a + 1 + n ≤ 4096 ∨ n = 0) ↔ (a + (n + 1) ≤ 4096 ∨ n + 1 = 0) := by omega
      simp only [hiff]
    · rw [State.loadSeq, State.memRead_ge s (by omega), show max a 4096 = a by omega]
      rw [if_neg (by omega)]
      rfl

/-- The registers after a load: those in the list whose byte is in range hold it, the others are unchanged. -/
theorem State.getV_loadSeq (s : State) (w : Word) (a i n : Nat) (hi : i + n ≤ 16) (r : RegIx) :
    (s.loadSeq w a i n).getV r =
      if i ≤ r.toNat ∧ r.toNat < i + n ∧ a + (r.toNat - i) < 4096 then s.mem.read (a + (r.toNat - i))
      else s.getV r := by
  induction n generalizing s a i with
  | zero => rw [State.loadSeq, if_neg (by omega)]
  | succ n ih =>
    by_cases ha : a < 4096
    · rw [State.loadSeq, State.memRead_lt s ha]
      simp only []
      rw [ih _ _ _ (by omega), State.setV_mem, State.getV_setV]
      have hix : (BitVec.ofNat 4 i).toNat = i := by rw [BitVec.toNat_ofNat]; omega
      by_cases hr : r.toNat = i
      · have hri : r = BitVec.ofNat 4 i := BitVec.eq_of_toNat_eq (by rw [hix, hr])
        rw [if_neg (by omega), if_pos hri, if_pos (by omega), hr, Nat.sub_self, Nat.add_zero]
      · have hri : r ≠ BitVec.ofNat 4 i := fun e => hr (by rw [e, hix])
        rw [if_neg hri]
        by_cases hlt : i ≤ r.toNat
        · have e1 : a + 1 + (r.toNat - (i + 1)) = a + (r.toNat - i) := by omega
          rw [e1]
          have hiff : (i + 1 ≤ r.toNat ∧ r.toNat < i + 1 + n ∧ a + (r.toNat - i) < 4096) ↔
              (i ≤ r.toNat ∧ r.toNat < i + (n + 1) ∧ a + (r.toNat - i) < 4096) := by omega
          simp only [hiff]
        · rw [if_neg (by omega), if_neg (by omega)]
    · rw [State.loadSeq, State.memRead_ge s (by omega), if_neg (by omega)]
      rfl

/-! ## Fetch -/

theorem State.fetch_ok (s : State) (h : s.pc.toNat + 1 < 4096) :
    s.fetch = .ok (wordOfBytes (s.mem.read s.pc.toNat) (s.mem.read (s.pc.toNat + 1))) := by
  simp [State.fetch, State.memRead_lt s (a := s.pc.toNat) (by omega), State.memRead_lt s h]

theorem State.fetch_error (s : State) (h : 4096 ≤ s.pc.toNat + 1) : s.fetch = .error (max s.pc.toNat 4096) := by
  by_cases h' : s.pc.toNat < 4096
  · simp [State.fetch, State.memRead_lt s h', State.memRead_ge s h]
    omega
  · simp [State.fetch, State.memRead_ge s (a := s.pc.toNat) (by omega)]
    omega

/-! ## The random draw -/

theorem State.drawnByte_named {s : State} {b : Byte} (h : s.ports.draw = some b) : s.drawnByte = b := by
  simp [State.drawnByte, h]

theorem State.drawnByte_free {s : State} (h : s.ports.draw = none) : s.drawnByte = Config.freeDraw s.draws := by
  simp [State.drawnByte, h]

theorem State.advanceRng_fields (s : State) :
    s.advanceRng = { s with rng := Config.rngNext s.rng, draws := s.draws + 1 } := rfl

@[simp] theorem State.getV_advanceRng (s : State) (r : RegIx) : s.advanceRng.getV r = s.getV r := rfl

end Sys2Proof.Machine
end

