-- ==== Sys2Proof/Laws/Display.lean ====
section
/-! SUPPORT. What the draw loops do, pixel by pixel: the targets of one draw are distinct (spec/44_display.md R212 (e)), so
each is XORed once with its sprite bit and tested against its old value. -/

namespace Sys2Proof.Machine

theorem wrapX_inj {v c d : Nat} (hc : c < 64) (hd : d < 64) (h : wrapX (v + c) = wrapX (v + d)) : c = d := by
  have := congrArg Fin.val h
  simp only [wrapX] at this
  omega

theorem wrapY_inj {v c d : Nat} (hc : c < 32) (hd : d < 32) (h : wrapY (v + c) = wrapY (v + d)) : c = d := by
  have := congrArg Fin.val h
  simp only [wrapY] at this
  omega

/-! ## One pixel -/

theorem State.drawPixel_fields (s : State) (px : Fin 64) (py : Fin 32) (bit : Bool) :
    s.drawPixel px py bit = { s with v := (s.drawPixel px py bit).v, fb := (s.drawPixel px py bit).fb } := by
  unfold State.drawPixel
  split <;> rfl

theorem State.pixel_drawPixel (s : State) (px qx : Fin 64) (py qy : Fin 32) (bit : Bool) :
    (s.drawPixel px py bit).pixel qx qy =
      if qx = px ∧ qy = py then (s.pixel px py ^^ bit) else s.pixel qx qy := by
  unfold State.drawPixel
  rw [State.pixel_setPixel]
  split
  · rfl
  · split <;> rfl

theorem State.getV_drawPixel (s : State) (px : Fin 64) (py : Fin 32) (bit : Bool) (r : RegIx) :
    (s.drawPixel px py bit).getV r = if r = vf ∧ (bit && s.pixel px py) = true then 1#8 else s.getV r := by
  unfold State.drawPixel
  rw [State.getV_setPixel]
  split
  · rename_i h; simp [State.getV_setV, h]
  · rename_i h; simp [h]

/-! ## One row -/

theorem State.drawCols_fields (s : State) (vx : Nat) (py : Fin 32) (b : Byte) (col n : Nat) :
    s.drawCols vx py b col n = { s with v := (s.drawCols vx py b col n).v, fb := (s.drawCols vx py b col n).fb } := by
  induction n generalizing s col with
  | zero => rfl
  | succ n ih =>
    rw [State.drawCols]
    refine (ih _ _).trans ?_
    rw [State.drawPixel_fields]

@[simp] theorem State.drawCols_mem (s : State) (vx : Nat) (py : Fin 32) (b : Byte) (col n : Nat) :
    (s.drawCols vx py b col n).mem = s.mem := by rw [State.drawCols_fields]

@[simp] theorem State.drawCols_index (s : State) (vx : Nat) (py : Fin 32) (b : Byte) (col n : Nat) :
    (s.drawCols vx py b col n).index = s.index := by rw [State.drawCols_fields]

@[simp] theorem State.drawCols_pc (s : State) (vx : Nat) (py : Fin 32) (b : Byte) (col n : Nat) :
    (s.drawCols vx py b col n).pc = s.pc := by rw [State.drawCols_fields]

@[simp] theorem State.drawCols_fault (s : State) (vx : Nat) (py : Fin 32) (b : Byte) (col n : Nat) :
    (s.drawCols vx py b col n).fault = s.fault := by rw [State.drawCols_fields]

/-- A pixel that no drawn column lands on keeps its value. -/
theorem State.pixel_drawCols_other (s : State) (vx : Nat) (py : Fin 32) (b : Byte) (col n : Nat) (qx : Fin 64)
    (qy : Fin 32) (h : ∀ c, col ≤ c → c < col + n → ¬ (qx = wrapX (vx + c) ∧ qy = py)) :
    (s.drawCols vx py b col n).pixel qx qy = s.pixel qx qy := by
  induction n generalizing s col with
  | zero => rfl
  | succ n ih =>
    rw [State.drawCols, ih _ _ (fun c h1 h2 => h c (by omega) (by omega)), State.pixel_drawPixel,
      if_neg (h col (by omega) (by omega))]

/-- The pixel a drawn column lands on is XORed with its sprite bit. -/
theorem State.pixel_drawCols_target (s : State) (vx : Nat) (py : Fin 32) (b : Byte) (col n c : Nat)
    (hn : col + n ≤ 8) (h1 : col ≤ c) (h2 : c < col + n) :
    (s.drawCols vx py b col n).pixel (wrapX (vx + c)) py =
      (s.pixel (wrapX (vx + c)) py ^^ b.getLsbD (7 - c)) := by
  induction n generalizing s col with
  | zero => omega
  | succ n ih =>
    rw [State.drawCols]
    by_cases hc : c = col
    · subst hc
      rw [State.pixel_drawCols_other, State.pixel_drawPixel, if_pos ⟨rfl, rfl⟩]
      rintro d hd1 hd2 ⟨he, -⟩
      have := wrapX_inj (by omega) (by omega) he
      omega
    · rw [ih _ _ (by omega) (by omega) (by omega), State.pixel_drawPixel, if_neg]
      rintro ⟨he, -⟩
      exact hc (wrapX_inj (by omega) (by omega) he)

/-- `VF` is set exactly when a drawn column collides; no other register changes. -/
theorem State.getV_drawCols (s : State) (vx : Nat) (py : Fin 32) (b : Byte) (col n : Nat) (hn : col + n ≤ 8)
    (r : RegIx) :
    ((r = vf ∧ ∃ c, col ≤ c ∧ c < col + n ∧ b.getLsbD (7 - c) = true ∧ s.pixel (wrapX (vx + c)) py = true) →
      (s.drawCols vx py b col n).getV r = 1#8) ∧
    (¬ (r = vf ∧ ∃ c, col ≤ c ∧ c < col + n ∧ b.getLsbD (7 - c) = true ∧ s.pixel (wrapX (vx + c)) py = true) →
      (s.drawCols vx py b col n).getV r = s.getV r) := by
  induction n generalizing s col with
  | zero => exact ⟨fun ⟨_, c, _, _, _⟩ => by omega, fun _ => rfl⟩
  | succ n ih =>
    rw [State.drawCols]
    obtain ⟨ih1, ih2⟩ := ih (s.drawPixel (wrapX (vx + col)) py (b.getLsbD (7 - col))) (col + 1) (by omega)
    have hold : ∀ c, col + 1 ≤ c → c < col + 1 + n →
        (s.drawPixel (wrapX (vx + col)) py (b.getLsbD (7 - col))).pixel (wrapX (vx + c)) py =
          s.pixel (wrapX (vx + c)) py := by
      intro c h1 h2
      rw [State.pixel_drawPixel, if_neg]
      rintro ⟨he, -⟩
      have := wrapX_inj (by omega) (by omega) he
      omega
    by_cases hlater : r = vf ∧ ∃ c, col + 1 ≤ c ∧ c < col + 1 + n ∧ b.getLsbD (7 - c) = true ∧
        s.pixel (wrapX (vx + c)) py = true
    · obtain ⟨hr, c, h1, h2, h3, h4⟩ := hlater
      refine ⟨fun _ => ih1 ⟨hr, c, h1, h2, h3, by rw [hold c h1 h2]; exact h4⟩, fun hno => ?_⟩
      exact absurd ⟨hr, c, by omega, by omega, h3, h4⟩ hno
    · have hkeep := ih2 (by
        rintro ⟨hr, c, h1, h2, h3, h4⟩
        exact hlater ⟨hr, c, h1, h2, h3, by rw [← hold c h1 h2]; exact h4⟩)
      rw [hkeep, State.getV_drawPixel]
      constructor
      · rintro ⟨hr, c, h1, h2, h3, h4⟩
        by_cases hc : c = col
        · subst hc; simp [hr, h3, h4]
        · exact absurd ⟨hr, c, by omega, by omega, h3, h4⟩ hlater
      · intro hno
        rw [if_neg]
        rintro ⟨hr, hb⟩
        simp only [Bool.and_eq_true] at hb
        exact hno ⟨hr, col, by omega, by omega, hb.1, hb.2⟩

/-! ## All rows -/

theorem State.drawRows_fields (s : State) (w : Word) (vx vy row n : Nat) :
    s.drawRows w vx vy row n =
      { s with
        v := (s.drawRows w vx vy row n).v
        fb := (s.drawRows w vx vy row n).fb
        fault := (s.drawRows w vx vy row n).fault } := by
  induction n generalizing s row with
  | zero => rfl
  | succ n ih =>
    by_cases ha : s.effAddr row < 4096
    · rw [State.drawRows, State.memRead_lt s ha]
      refine (ih _ _).trans ?_
      simp only []
      rw [State.drawCols_fields]
    · rw [State.drawRows, State.memRead_ge s (by omega)]
      rfl

theorem State.drawRows_succ (s : State) (w : Word) (vx vy row n : Nat) (h : s.effAddr row < 4096) :
    s.drawRows w vx vy row (n + 1) =
      (s.drawCols vx (wrapY (vy + row)) (s.mem.read (s.effAddr row)) 0 8).drawRows w vx vy (row + 1) n := by
  rw [State.drawRows, State.memRead_lt s h]

theorem State.spriteBit_drawCols (s : State) (vx : Nat) (py : Fin 32) (b : Byte) (col n row c : Nat) :
    (s.drawCols vx py b col n).spriteBit row c = s.spriteBit row c := by
  simp [State.spriteBit, State.effAddr]

/-- A draw past the last address draws the rows that fit, then raises at the first that does not. -/
theorem State.drawRows_overflows (s : State) (w : Word) (vx vy row n : Nat) (hn : 0 < n)
    (h : 4096 < s.effAddr row + n) :
    s.drawRows w vx vy row n =
      (s.drawRows w vx vy row (4096 - s.effAddr row)).raiseExec .memoryOutOfRange w (max (s.effAddr row) 4096) := by
  induction n generalizing s row with
  | zero => omega
  | succ n ih =>
    by_cases ha : s.effAddr row < 4096
    · have hrow : ∀ (t : State), t.index = s.index → t.effAddr (row + 1) = s.effAddr row + 1 := by
        intro t ht; simp [State.effAddr, ht]; omega
      have hd := hrow (s.drawCols vx (wrapY (vy + row)) (s.mem.read (s.effAddr row)) 0 8) (by simp)
      rw [State.drawRows_succ s w vx vy row n ha, ih _ _ (by omega) (by omega), hd,
        show 4096 - s.effAddr row = (4096 - (s.effAddr row + 1)) + 1 by omega, State.drawRows_succ s w vx vy row _ ha,
        show max (s.effAddr row + 1) 4096 = max (s.effAddr row) 4096 by omega]
    · rw [State.drawRows, State.memRead_ge s (by omega), show 4096 - s.effAddr row = 0 by omega,
        show max (s.effAddr row) 4096 = s.effAddr row by omega]
      rfl

theorem State.drawRows_fault (s : State) (w : Word) (vx vy row n : Nat) (h : s.effAddr row + n ≤ 4096 ∨ n = 0) :
    (s.drawRows w vx vy row n).fault = s.fault := by
  induction n generalizing s row with
  | zero => rfl
  | succ n ih =>
    have ha : s.effAddr row < 4096 := by omega
    rw [State.drawRows_succ s w vx vy row n ha, ih, State.drawCols_fault]
    left
    simp [State.effAddr] at *
    omega

theorem State.pixel_drawRows_other (s : State) (w : Word) (vx vy row n : Nat) (qx : Fin 64) (qy : Fin 32)
    (hb : s.effAddr row + n ≤ 4096 ∨ n = 0)
    (h : ∀ r, row ≤ r → r < row + n → ∀ c, c < 8 → ¬ (qx = wrapX (vx + c) ∧ qy = wrapY (vy + r))) :
    (s.drawRows w vx vy row n).pixel qx qy = s.pixel qx qy := by
  induction n generalizing s row with
  | zero => rfl
  | succ n ih =>
    have ha : s.effAddr row < 4096 := by omega
    rw [State.drawRows_succ s w vx vy row n ha, ih, State.pixel_drawCols_other]
    · exact fun c _ hc => h row (by omega) (by omega) c (by omega)
    · left; simp [State.effAddr] at *; omega
    · exact fun r h1 h2 => h r (by omega) (by omega)

theorem State.pixel_drawRows_target (s : State) (w : Word) (vx vy row n r c : Nat)
    (hb : s.effAddr row + n ≤ 4096 ∨ n = 0) (hn : row + n ≤ 32) (h1 : row ≤ r) (h2 : r < row + n) (hc : c < 8) :
    (s.drawRows w vx vy row n).pixel (wrapX (vx + c)) (wrapY (vy + r)) =
      (s.pixel (wrapX (vx + c)) (wrapY (vy + r)) ^^ s.spriteBit r c) := by
  induction n generalizing s row with
  | zero => omega
  | succ n ih =>
    have ha : s.effAddr row < 4096 := by omega
    have hb' : (s.drawCols vx (wrapY (vy + row)) (s.mem.read (s.effAddr row)) 0 8).effAddr (row + 1) + n ≤ 4096 ∨
        n = 0 := by left; simp [State.effAddr] at *; omega
    rw [State.drawRows_succ s w vx vy row n ha]
    by_cases hr : r = row
    · subst hr
      rw [State.pixel_drawRows_other _ _ _ _ _ _ _ _ hb', State.pixel_drawCols_target _ _ _ _ _ _ _ (by omega)
        (by omega) (by omega)]
      · rfl
      · rintro d hd1 hd2 e he ⟨-, hy⟩
        have := wrapY_inj (by omega) (by omega) hy
        omega
    · rw [ih _ _ hb' (by omega) (by omega) (by omega), State.spriteBit_drawCols, State.pixel_drawCols_other]
      rintro d - hd ⟨-, hy⟩
      exact hr (wrapY_inj (by omega) (by omega) hy)

/-- `VF` is set exactly when a drawn pixel collides; no other register changes. -/
theorem State.getV_drawRows (s : State) (w : Word) (vx vy row n : Nat) (hb : s.effAddr row + n ≤ 4096 ∨ n = 0)
    (hn : row + n ≤ 32) (q : RegIx) :
    ((q = vf ∧ ∃ r c, row ≤ r ∧ r < row + n ∧ c < 8 ∧ s.spriteBit r c = true ∧
        s.pixel (wrapX (vx + c)) (wrapY (vy + r)) = true) → (s.drawRows w vx vy row n).getV q = 1#8) ∧
    (¬ (q = vf ∧ ∃ r c, row ≤ r ∧ r < row + n ∧ c < 8 ∧ s.spriteBit r c = true ∧
        s.pixel (wrapX (vx + c)) (wrapY (vy + r)) = true) → (s.drawRows w vx vy row n).getV q = s.getV q) := by
  induction n generalizing s row with
  | zero => exact ⟨fun ⟨_, r, c, _, _, _⟩ => by omega, fun _ => rfl⟩
  | succ n ih =>
    have ha : s.effAddr row < 4096 := by omega
    rw [State.drawRows_succ s w vx vy row n ha]
    set d := s.drawCols vx (wrapY (vy + row)) (s.mem.read (s.effAddr row)) 0 8 with hd
    have hb' : d.effAddr (row + 1) + n ≤ 4096 ∨ n = 0 := by left; simp [hd, State.effAddr] at *; omega
    obtain ⟨ih1, ih2⟩ := ih d (row + 1) hb' (by omega)
    obtain ⟨c1, c2⟩ := State.getV_drawCols s vx (wrapY (vy + row)) (s.mem.read (s.effAddr row)) 0 8 (by omega) q
    have hbit : ∀ r c, d.spriteBit r c = s.spriteBit r c := fun r c => by rw [hd, State.spriteBit_drawCols]
    have hpix : ∀ r, row + 1 ≤ r → r < row + 1 + n → ∀ c, c < 8 →
        d.pixel (wrapX (vx + c)) (wrapY (vy + r)) = s.pixel (wrapX (vx + c)) (wrapY (vy + r)) := by
      intro r h1 h2 c hc
      rw [hd, State.pixel_drawCols_other]
      rintro e - he ⟨-, hy⟩
      have := wrapY_inj (by omega) (by omega) hy
      omega
    by_cases hlater : q = vf ∧ ∃ r c, row + 1 ≤ r ∧ r < row + 1 + n ∧ c < 8 ∧ s.spriteBit r c = true ∧
        s.pixel (wrapX (vx + c)) (wrapY (vy + r)) = true
    · obtain ⟨hq, r, c, h1, h2, h3, h4, h5⟩ := hlater
      refine ⟨fun _ => ih1 ⟨hq, r, c, h1, h2, h3, by rw [hbit]; exact h4, by rw [hpix r h1 h2 c h3]; exact h5⟩,
        fun hno => absurd ⟨hq, r, c, by omega, by omega, h3, h4, h5⟩ hno⟩
    · rw [ih2 (by
        rintro ⟨hq, r, c, h1, h2, h3, h4, h5⟩
        exact hlater ⟨hq, r, c, h1, h2, h3, by rw [← hbit]; exact h4, by rw [← hpix r h1 h2 c h3]; exact h5⟩)]
      constructor
      · rintro ⟨hq, r, c, h1, h2, h3, h4, h5⟩
        by_cases hr : r = row
        · subst hr
          exact c1 ⟨hq, c, by omega, by omega, h4, h5⟩
        · exact absurd ⟨hq, r, c, by omega, by omega, h3, h4, h5⟩ hlater
      · intro hno
        refine c2 ?_
        rintro ⟨hq, c, h1, h2, h3, h4⟩
        exact hno ⟨hq, row, c, by omega, by omega, by omega, h3, h4⟩

end Sys2Proof.Machine
end

