-- ==== Sys2Proof/Laws/PerInstr.lean ====
section
/-! SUPPORT. Per instruction: the encoding lies in the instruction's row of the opcode map (spec/30_encoding.md R95). -/

namespace Sys2Proof.Laws

/-- R95: the instruction's word agrees with its row's match under its row's mask. -/
def EncodesInRow.Statement (i : Instr) : Prop := encode i &&& i.row.mask = i.row.value

theorem EncodesInRow.cls : EncodesInRow.Statement (.cls) := by unfold EncodesInRow.Statement; decide
theorem EncodesInRow.ret : EncodesInRow.Statement (.ret) := by unfold EncodesInRow.Statement; decide
theorem EncodesInRow.jp (nnn : Addr12) : EncodesInRow.Statement (.jp nnn) := formatA_mask _ _
theorem EncodesInRow.call (nnn : Addr12) : EncodesInRow.Statement (.call nnn) := formatA_mask _ _
theorem EncodesInRow.seImm (x : RegIx) (nn : Byte) : EncodesInRow.Statement (.seImm x nn) := formatXI_mask _ _ _
theorem EncodesInRow.sneImm (x : RegIx) (nn : Byte) : EncodesInRow.Statement (.sneImm x nn) := formatXI_mask _ _ _
theorem EncodesInRow.seReg (x y : RegIx) : EncodesInRow.Statement (.seReg x y) := formatXYN_subMask _ _ _ _
theorem EncodesInRow.ldImm (x : RegIx) (nn : Byte) : EncodesInRow.Statement (.ldImm x nn) := formatXI_mask _ _ _
theorem EncodesInRow.addImm (x : RegIx) (nn : Byte) : EncodesInRow.Statement (.addImm x nn) := formatXI_mask _ _ _
theorem EncodesInRow.ldReg (x y : RegIx) : EncodesInRow.Statement (.ldReg x y) := formatXYN_subMask _ _ _ _
theorem EncodesInRow.orReg (x y : RegIx) : EncodesInRow.Statement (.orReg x y) := formatXYN_subMask _ _ _ _
theorem EncodesInRow.andReg (x y : RegIx) : EncodesInRow.Statement (.andReg x y) := formatXYN_subMask _ _ _ _
theorem EncodesInRow.xorReg (x y : RegIx) : EncodesInRow.Statement (.xorReg x y) := formatXYN_subMask _ _ _ _
theorem EncodesInRow.addReg (x y : RegIx) : EncodesInRow.Statement (.addReg x y) := formatXYN_subMask _ _ _ _
theorem EncodesInRow.subReg (x y : RegIx) : EncodesInRow.Statement (.subReg x y) := formatXYN_subMask _ _ _ _
theorem EncodesInRow.shrReg (x y : RegIx) : EncodesInRow.Statement (.shrReg x y) := formatXYN_subMask _ _ _ _
theorem EncodesInRow.subnReg (x y : RegIx) : EncodesInRow.Statement (.subnReg x y) := formatXYN_subMask _ _ _ _
theorem EncodesInRow.shlReg (x y : RegIx) : EncodesInRow.Statement (.shlReg x y) := formatXYN_subMask _ _ _ _
theorem EncodesInRow.sneReg (x y : RegIx) : EncodesInRow.Statement (.sneReg x y) := formatXYN_subMask _ _ _ _
theorem EncodesInRow.ldI (nnn : Addr12) : EncodesInRow.Statement (.ldI nnn) := formatA_mask _ _
theorem EncodesInRow.jpV0 (nnn : Addr12) : EncodesInRow.Statement (.jpV0 nnn) := formatA_mask _ _
theorem EncodesInRow.rnd (x : RegIx) (nn : Byte) : EncodesInRow.Statement (.rnd x nn) := formatXI_mask _ _ _
theorem EncodesInRow.drw (x y : RegIx) (n : Nibble) : EncodesInRow.Statement (.drw x y n) := formatXYN_mask _ _ _ _
theorem EncodesInRow.skp (x : RegIx) : EncodesInRow.Statement (.skp x) := formatXI_subMask _ _ _
theorem EncodesInRow.sknp (x : RegIx) : EncodesInRow.Statement (.sknp x) := formatXI_subMask _ _ _
theorem EncodesInRow.ldVxDT (x : RegIx) : EncodesInRow.Statement (.ldVxDT x) := formatXI_subMask _ _ _
theorem EncodesInRow.ldVxK (x : RegIx) : EncodesInRow.Statement (.ldVxK x) := formatXI_subMask _ _ _
theorem EncodesInRow.ldDTVx (x : RegIx) : EncodesInRow.Statement (.ldDTVx x) := formatXI_subMask _ _ _
theorem EncodesInRow.ldSTVx (x : RegIx) : EncodesInRow.Statement (.ldSTVx x) := formatXI_subMask _ _ _
theorem EncodesInRow.addI (x : RegIx) : EncodesInRow.Statement (.addI x) := formatXI_subMask _ _ _
theorem EncodesInRow.ldF (x : RegIx) : EncodesInRow.Statement (.ldF x) := formatXI_subMask _ _ _
theorem EncodesInRow.ldB (x : RegIx) : EncodesInRow.Statement (.ldB x) := formatXI_subMask _ _ _
theorem EncodesInRow.storeRegs (x : RegIx) : EncodesInRow.Statement (.storeRegs x) := formatXI_subMask _ _ _
theorem EncodesInRow.loadRegs (x : RegIx) : EncodesInRow.Statement (.loadRegs x) := formatXI_subMask _ _ _

end Sys2Proof.Laws
end

