-- ==== Sys2Proof/Laws/Timers.lean ====
section
/-! SUPPORT. What the timer check changes and by how much. -/

namespace Sys2Proof.Machine

theorem decrementEvent_iff (p : Nat) (t : Byte) (last now : Time) :
    decrementEvent p t last now = true ↔ t ≠ 0#8 ∧ last.toNat + p < now.toNat := by
  simp only [decrementEvent, Bool.and_eq_true, bne_iff_ne, decide_eq_true_eq]
  exact and_congr_right fun _ => by unfold elapsed; omega

theorem ticksElapsed_eq (p : Nat) (last now : Time) : ticksElapsed p last now = (now.toNat - last.toNat) / p := by
  simp [ticksElapsed, elapsed]

theorem lowered_toNat (t : Byte) (k : Nat) : (lowered t k).toNat = t.toNat - k := by
  have := t.isLt
  simp [lowered]
  omega

/-- The check of `DT` changes `DT` and `DT_LAST` only. -/
theorem State.decayDT_fields (s : State) (now : Time) :
    s.decayDT now = { s with dt := (s.decayDT now).dt, dtLast := (s.decayDT now).dtLast } := by
  unfold State.decayDT
  split <;> rfl

/-- The check of `ST` changes `ST`, `ST_LAST` and the count of triggers only. -/
theorem State.decayST_fields (s : State) (now : Time) :
    s.decayST now =
      { s with
        st := (s.decayST now).st
        stLast := (s.decayST now).stLast
        soundTriggers := (s.decayST now).soundTriggers } := by
  unfold State.decayST
  split <;> rfl

/-- The timer check changes the two timers, their timestamps and the count of triggers only. -/
theorem State.timerCheck_fields (s : State) :
    s.timerCheck =
      { s with
        dt := s.timerCheck.dt
        st := s.timerCheck.st
        dtLast := s.timerCheck.dtLast
        stLast := s.timerCheck.stLast
        soundTriggers := s.timerCheck.soundTriggers } := by
  unfold State.timerCheck
  rw [State.decayST_fields, State.decayDT_fields]

theorem State.timerCheck_dt (s : State) :
    s.timerCheck.dt =
      if decrementEvent s.cfg.tickUs s.dt s.dtLast s.ports.time then
        lowered s.dt (ticksElapsed s.cfg.tickUs s.dtLast s.ports.time)
      else s.dt := by
  unfold State.timerCheck
  rw [State.decayST_fields]
  unfold State.decayDT
  split <;> rfl

theorem State.timerCheck_dtLast (s : State) :
    s.timerCheck.dtLast =
      if decrementEvent s.cfg.tickUs s.dt s.dtLast s.ports.time then s.ports.time else s.dtLast := by
  unfold State.timerCheck
  rw [State.decayST_fields]
  unfold State.decayDT
  split <;> rfl

theorem State.timerCheck_st (s : State) :
    s.timerCheck.st =
      if decrementEvent s.cfg.tickUs s.st s.stLast s.ports.time then
        lowered s.st (ticksElapsed s.cfg.tickUs s.stLast s.ports.time)
      else s.st := by
  unfold State.timerCheck
  rw [State.decayDT_fields]
  unfold State.decayST
  simp only []
  split <;> rfl

theorem State.timerCheck_stLast (s : State) :
    s.timerCheck.stLast =
      if decrementEvent s.cfg.tickUs s.st s.stLast s.ports.time then s.ports.time else s.stLast := by
  unfold State.timerCheck
  rw [State.decayDT_fields]
  unfold State.decayST
  simp only []
  split <;> rfl

theorem State.timerCheck_soundTriggers (s : State) :
    s.timerCheck.soundTriggers =
      if decrementEvent s.cfg.tickUs s.st s.stLast s.ports.time then s.soundTriggers + 1 else s.soundTriggers := by
  unfold State.timerCheck
  rw [State.decayDT_fields]
  unfold State.decayST
  simp only []
  split <;> rfl

end Sys2Proof.Machine
end

