-- ==== Sys2Proof/Laws/Step.lean ====
section
/-! SUPPORT. What a step can do, said once, and the state its execute phase starts from. -/

namespace Sys2Proof.Machine

/-- Phase 1 changes the timers, their timestamps, the count of triggers and the `load` window only. -/
theorem State.beginStep_fields (s : State) :
    s.beginStep =
      { s with
        dt := s.timerCheck.dt
        st := s.timerCheck.st
        dtLast := s.timerCheck.dtLast
        stLast := s.timerCheck.stLast
        soundTriggers := s.timerCheck.soundTriggers
        loadOpen := false } := by
  unfold State.beginStep
  rw [State.timerCheck_fields]
  simp only [State.timerCheck_dt, State.timerCheck_st, State.timerCheck_dtLast, State.timerCheck_stLast,
    State.timerCheck_soundTriggers]
  rfl

theorem State.beginStep_fetch (s : State) : s.beginStep.fetch = s.fetch := by
  rw [State.beginStep_fields]; rfl

/-- A halted engine does nothing. -/
theorem step_halted {s : State} {r : FaultRecord} (h : s.fault = some r) : step s = .next s := by
  unfold step cycle
  rw [h]

/-- An engine inside an `Fx0A` goes on waiting. -/
theorem step_waiting {s : State} {x : RegIx} (h : s.fault = none) (hw : s.keyWait = some x) :
    step s = .next (s.waitKey x) := by
  unfold step cycle
  rw [h, hw]

/-- A fetch out of range raises and leaves `PC`. -/
theorem step_fetchFault {s : State} (h : s.running) (hp : 4096 ≤ s.pc.toNat + 1) :
    step s = .next (s.beginStep.raise .memoryOutOfRange s.pc 0#16 (max s.pc.toNat 4096)) := by
  have hpc : s.beginStep.pc = s.pc := by rw [State.beginStep_fields]
  unfold step cycle fetchAndRun
  rw [h.1, h.2]
  simp only []
  rw [State.beginStep_fetch, State.fetch_error s hp, hpc]

/-- A step that fetches runs the fetched word after the timer check. -/
theorem step_fetched {s : State} (h : s.running) (hp : s.pc.toNat + 1 < 4096) :
    step s = runWord s.beginStep (wordOfBytes (s.mem.read s.pc.toNat) (s.mem.read (s.pc.toNat + 1))) := by
  unfold step cycle fetchAndRun
  rw [h.1, h.2]
  simp only []
  rw [State.beginStep_fetch, State.fetch_ok s hp]

theorem runWord_ok {s : State} {w : Word} {i : Instr} (h : decodeWord w = .ok i) : runWord s w = exec i s.advance := by
  unfold runWord
  rw [h]

theorem runWord_error {s : State} {w : Word} {r : Reject} (h : decodeWord w = .error r) :
    runWord s w = .next (s.advance.raise .invalidInstruction s.pc w 0) := by
  unfold runWord
  rw [h]

/-- Every meaning answers a next state. -/
theorem exec_answers_next (i : Instr) (s : State) : ∃ t, exec i s = .next t := by
  cases i <;> first
    | exact ⟨_, rfl⟩
    | (simp only [exec, execRet, execCall, execSkp, execSknp]; split <;> exact ⟨_, rfl⟩)

end Sys2Proof.Machine
end

