-- ==== Sys2Proof/Tests/Slice0.lean ====
section
/-! SUPPORT. Tests. Expected values come from spec/95_test_vectors.md (a theorem's comment names its vector) or from the
examples of the rules; the words are written out from the patterns of spec/30_encoding.md R95. At the end stands, for every
statement with hypotheses, a state that meets them. -/

namespace Sys2Proof.Tests

open Sys2Proof Sys2Proof.Machine

/-- The state a step answers. -/
def after (s : State) : Option State :=
  match step s with
  | .next t => some t
  | _ => none

/-- What a sequence of host requests from reset leaves. -/
def afterAll (as : List HostAction) : Option State :=
  match performAll as State.reset with
  | .next t => some t
  | _ => none

/-- The reset state with the word `w` at 0x200. -/
def prog (w : Word) : State := State.reset.placeWord w

/-- The state with `MEM[a] = b`. -/
def poke (s : State) (a : Nat) (b : Byte) : State := s.setMem (s.mem.write a b)

/-- The state with the given held keys. -/
def hold (s : State) (keys : BitVec 16) : State := s.setPorts { s.ports with keyHeld := keys }

/-- The state in which the host delivers the key event `k` during the step. -/
def press (s : State) (k : BitVec 4) : State := s.setPorts { s.ports with keyEvent := some k }

/-- The state in which `TIME` is `n`. -/
def atTime (s : State) (n : Time) : State := s.setPorts { s.ports with time := n }

/-- `s` with the byte `b` presented as the draw. -/
def drawing (s : State) (b : Byte) : State := s.setPorts { s.ports with draw := some b }

/-- The numbers of a fault record, in the order of R40; none for an empty one. -/
def record (s : State) : List Nat :=
  match s.fault with
  | some r => [r.cause.code.toNat, r.pc.toNat, r.opcode.toNat, r.ea.toNat]
  | none => []

/-! ## Well-formed and ill-formed words (30_encoding.md R95, R96; vectors E3, E7, E9, E11, E15, E17)

`Instr` has no ill-formed term (R97); an ill-formed instruction is an ill-formed word, and each family's check refuses it. -/

theorem test_illFormedFamily0 : [0x00E1, 0x00EF, 0x0000, 0x0123, 0x0FFF, 0x00FD].all (fun w => !wordLegal w) = true := by decide
theorem test_illFormedFamily5 : [0x5121, 0x512F].all (fun w => !wordLegal w) = true := by decide
theorem test_illFormedFamily8 :
    [0x8009, 0x8AB8, 0x8ABA, 0x8ABB, 0x8ABC, 0x8ABD, 0x8ABF].all (fun w => !wordLegal w) = true := by decide
theorem test_illFormedFamily9 : [0x9AB3, 0x912F].all (fun w => !wordLegal w) = true := by decide
theorem test_illFormedFamilyE : [0xE19F, 0xE1A0, 0xE100, 0xE1FF].all (fun w => !wordLegal w) = true := by decide
theorem test_illFormedFamilyF :
    [0xF000, 0xF308, 0xF31F, 0xF356, 0xF364, 0xF375, 0xF3FF].all (fun w => !wordLegal w) = true := by decide
theorem test_representativesWellFormed : Instr.representatives.all Instr.wellFormed = true := by decide

/-- R95: the 34 rows are pairwise disjoint: two rows differ in a bit that both fix. -/
theorem test_rowsDisjoint :
    opcodeTable.Pairwise (fun r q => r.value &&& (r.mask &&& q.mask) ≠ q.value &&& (r.mask &&& q.mask)) := by decide

/-! ## Decoding: one word of every constructor, and the rejections by name -/

theorem test_decodeControl :
    decodeWord 0x00EE = .ok .ret ∧ decodeWord 0x1ABC = .ok (.jp 0xABC) ∧ decodeWord 0x2300 = .ok (.call 0x300) ∧
    decodeWord 0x332A = .ok (.seImm 3 0x2A) ∧ decodeWord 0x432A = .ok (.sneImm 3 0x2A) ∧
    decodeWord 0x5120 = .ok (.seReg 1 2) ∧ decodeWord 0x9AB0 = .ok (.sneReg 10 11) ∧
    decodeWord 0xBFFE = .ok (.jpV0 0xFFE) := by decide
theorem test_decodeAlu :
    decodeWord 0x6A3C = .ok (.ldImm 10 0x3C) ∧ decodeWord 0x7120 = .ok (.addImm 1 0x20) ∧
    decodeWord 0x8120 = .ok (.ldReg 1 2) ∧ decodeWord 0x8121 = .ok (.orReg 1 2) ∧ decodeWord 0x8122 = .ok (.andReg 1 2) ∧
    decodeWord 0x8123 = .ok (.xorReg 1 2) ∧ decodeWord 0x8124 = .ok (.addReg 1 2) ∧ decodeWord 0x8125 = .ok (.subReg 1 2) ∧
    decodeWord 0x8126 = .ok (.shrReg 1 2) ∧ decodeWord 0x8127 = .ok (.subnReg 1 2) ∧
    decodeWord 0x8ABE = .ok (.shlReg 10 11) := by decide
theorem test_decodeIndexMemory :
    decodeWord 0xA2F0 = .ok (.ldI 0x2F0) ∧ decodeWord 0xF31E = .ok (.addI 3) ∧ decodeWord 0xF029 = .ok (.ldF 0) ∧
    decodeWord 0xF533 = .ok (.ldB 5) ∧ decodeWord 0xFF55 = .ok (.storeRegs 15) ∧
    decodeWord 0xF265 = .ok (.loadRegs 2) := by decide
theorem test_decodeDisplay :
    decodeWord 0x00E0 = .ok .cls ∧ decodeWord 0xD125 = .ok (.drw 1 2 5) ∧ decodeWord 0xD120 = .ok (.drw 1 2 0) := by decide
theorem test_decodeKeysTimersRandom :
    decodeWord 0xE19E = .ok (.skp 1) ∧ decodeWord 0xE1A1 = .ok (.sknp 1) ∧ decodeWord 0xF007 = .ok (.ldVxDT 0) ∧
    decodeWord 0xFF0A = .ok (.ldVxK 15) ∧ decodeWord 0xF315 = .ok (.ldDTVx 3) ∧ decodeWord 0xF318 = .ok (.ldSTVx 3) ∧
    decodeWord 0xC30F = .ok (.rnd 3 0x0F) := by decide
theorem test_rejectionsByName :
    decodeWord 0x0123 = .error .invalidFamily0 ∧ decodeWord 0x5121 = .error .invalidFamily5 ∧
    decodeWord 0x8009 = .error .invalidFamily8 ∧ decodeWord 0x9AB3 = .error .invalidFamily9 ∧
    decodeWord 0xE19F = .error .invalidFamilyE ∧ decodeWord 0xF3FF = .error .invalidFamilyF ∧
    decodeBytes [0x12] = .error .tooShort := by decide
/-- F6: the byte at the lower address is the high byte. -/
theorem test_bytesBigEndian : decodeBytes [0x12, 0x34, 0x56] = .ok (.jp 0x234, [0x56]) := by decide
theorem test_tableWord : decodeTableWord 16 0xD125 = some (.drw 1 2 5) ∧ decodeTableWord 16 0x8009 = none := by decide

/-! ## Fetch and step cycle (vectors F1 to F8) -/

/-- F1: the last fetchable address. -/
theorem test_fetchLast : (after ((State.reset.setPc 0xFFE).placeWord 0x6000)).map (fun t => (t.pc, record t)) =
    some (0x1000, []) := by decide
/-- F2: the high byte is in range, the low byte is not. -/
theorem test_fetchHalf : (after (State.reset.setPc 0xFFF)).map (fun t => (t.pc, record t)) =
    some (0xFFF, [2, 0xFFF, 0, 0x1000]) := by decide
/-- F4: the largest reachable `PC`. -/
theorem test_fetchHigh : (after (State.reset.setPc 0x10FE)).map (fun t => (t.pc, record t)) =
    some (0x10FE, [2, 0x10FE, 0, 0x10FE]) := by decide
/-- F5: an odd `PC`. -/
theorem test_fetchOdd : (after ((State.reset.setPc 0x201).placeWord 0x6105)).map (fun t => (t.pc, t.getV 1)) =
    some (0x203, 0x05) := by decide
/-- F8: zeroed memory is no instruction. -/
theorem test_zeroWord : (after State.reset).map (fun t => (t.pc, record t)) = some (0x202, [1, 0x200, 0, 0]) := by
  decide
/-- A52: the document's invalid word. -/
theorem test_invalidWord : (after (prog 0x8009)).map (fun t => (t.pc, record t)) =
    some (0x202, [1, 0x200, 0x8009, 0]) := by decide
/-- F7: a step of a halted engine at a later `TIME`, with a timer running. -/
theorem test_haltedStep : (after (atTime ((State.reset.raise .invalidInstruction 0x200 0 0).setDt 5) 1000000)).map
    (fun t => (t.pc, t.dt, t.dtLast, t.loadOpen, record t)) = some (0x200, 5, 0, true, [1, 0x200, 0, 0]) := by decide

/-! ## Control flow (vectors C1 to C24) -/

/-- C7, C1: a call, then a return (W6, R128). -/
theorem test_call : (after (prog 0x2300)).map (fun t => (t.stack[0], t.sp, t.pc)) = some (0x202, 1, 0x300) := by decide
/-- C9. -/
theorem test_callFull : (after ((prog 0x2300).setStack (Vector.replicate 16 0) 16)).map (fun t => (t.pc, t.sp, record t)) =
    some (0x202, 16, [3, 0x200, 0x2300, 0]) := by decide
/-- C3. -/
theorem test_ret : (after ((prog 0x00EE).setStack ((Vector.replicate 16 0).set 15 0x0ABD) 16)).map (fun t => (t.pc, t.sp)) =
    some (0xABD, 15) := by decide
/-- C2, at 0x200. -/
theorem test_retEmpty : (after (prog 0x00EE)).map (fun t => (t.pc, t.sp, record t)) =
    some (0x202, 0, [4, 0x200, 0x00EE, 0]) := by decide
/-- C4. -/
theorem test_jp : (after (prog 0x1ABC)).map (·.pc) = some 0xABC := by decide
/-- C11, C12. -/
theorem test_seImm : (after ((prog 0x3A42).setV 10 0x42)).map (·.pc) = some 0x204 ∧
    (after ((prog 0x3A42).setV 10 0x43)).map (·.pc) = some 0x202 := by decide
/-- C13, C14. -/
theorem test_sneImm : (after ((prog 0x4A42).setV 10 0x42)).map (·.pc) = some 0x202 ∧
    (after ((prog 0x4A42).setV 10 0x43)).map (·.pc) = some 0x204 := by decide
/-- C15, C16. -/
theorem test_seReg : (after (((prog 0x5120).setV 1 7).setV 2 7)).map (·.pc) = some 0x204 ∧
    (after (((prog 0x5120).setV 1 7).setV 2 8)).map (·.pc) = some 0x202 := by decide
/-- C18, C19. -/
theorem test_sneReg : (after (((prog 0x9120).setV 1 7).setV 2 7)).map (·.pc) = some 0x202 ∧
    (after (((prog 0x9120).setV 1 7).setV 2 8)).map (·.pc) = some 0x204 := by decide
/-- C22. -/
theorem test_jpV0 : (after ((prog 0xBFFF).setV 0 0xFF)).map (fun t => (t.pc, record t)) = some (0x10FE, []) := by decide

/-! ## Arithmetic, logic, shift (vectors A1 to A50) -/

/-- A2. -/
theorem test_ldImm : (after ((prog 0x6F07).setV 15 1)).map (fun t => (t.getV 15, t.pc)) = some (0x07, 0x202) := by decide
/-- A4. -/
theorem test_addImm : (after ((prog 0x71FF).setV 1 2)).map (fun t => (t.getV 1, t.getV 15)) = some (1, 0) := by decide
/-- A7. -/
theorem test_ldReg : (after (((prog 0x8120).setV 1 1).setV 2 0xAB)).map (fun t => (t.getV 1, t.getV 2)) =
    some (0xAB, 0xAB) := by decide
/-- A10. -/
theorem test_orReg : (after ((((prog 0x8121).setV 1 0xF0).setV 2 0x0F).setV 15 1)).map (fun t => (t.getV 1, t.getV 15)) =
    some (0xFF, 1) := by decide
/-- A11. -/
theorem test_andReg : (after ((((prog 0x8122).setV 1 0xF3).setV 2 0x3F).setV 15 1)).map (fun t => (t.getV 1, t.getV 15)) =
    some (0x33, 1) := by decide
/-- A12. -/
theorem test_xorReg : (after ((((prog 0x8123).setV 1 0xFF).setV 2 0x0F).setV 15 1)).map (fun t => (t.getV 1, t.getV 15)) =
    some (0xF0, 1) := by decide
/-- A17, A14. -/
theorem test_addReg : (after ((((prog 0x8124).setV 1 100).setV 2 155).setV 15 1)).map (fun t => (t.getV 1, t.getV 15)) =
      some (0xFF, 0) ∧
    (after (((prog 0x8124).setV 1 200).setV 2 100)).map (fun t => (t.getV 1, t.getV 15)) = some (0x2C, 1) := by decide
/-- A20: with `x = F` the flag stays and the sum is lost. -/
theorem test_addRegToFlag : (after (((prog 0x8F14).setV 15 0xC8).setV 1 0x64)).map (·.getV 15) = some 1 := by decide
/-- A23, A25. -/
theorem test_subReg : (after (((prog 0x8125).setV 1 5).setV 2 7)).map (fun t => (t.getV 1, t.getV 15)) = some (0xFE, 0) ∧
    (after (((prog 0x8125).setV 1 7).setV 2 7)).map (fun t => (t.getV 1, t.getV 15)) = some (0, 1) := by decide
/-- A28: `y = F`, the old `VF` is subtracted. -/
theorem test_subRegFlagSource : (after (((prog 0x81F5).setV 1 0).setV 15 1)).map (fun t => (t.getV 1, t.getV 15)) =
    some (0xFF, 0) := by decide
/-- A31. -/
theorem test_shrReg : (after (((prog 0x8126).setV 1 0xAA).setV 2 5)).map (fun t => (t.getV 1, t.getV 2, t.getV 15)) =
    some (2, 5, 1) := by decide
/-- A34: `y = F`. -/
theorem test_shrRegFlagSource : (after (((prog 0x81F6).setV 1 0x55).setV 15 3)).map (fun t => (t.getV 1, t.getV 15)) =
    some (1, 1) := by decide
/-- A37, A38. -/
theorem test_subnReg : (after (((prog 0x8127).setV 1 5).setV 2 7)).map (fun t => (t.getV 1, t.getV 15)) = some (2, 1) ∧
    (after (((prog 0x8127).setV 1 7).setV 2 5)).map (fun t => (t.getV 1, t.getV 15)) = some (0xFE, 0) := by decide
/-- A44. -/
theorem test_shlReg : (after ((prog 0x812E).setV 2 0x81)).map (fun t => (t.getV 1, t.getV 2, t.getV 15)) =
    some (2, 0x81, 1) := by decide
/-- A49: `x = F`. -/
theorem test_shlRegToFlag : (after ((prog 0x8F2E).setV 2 0x40)).map (·.getV 15) = some 0 := by decide

/-! ## Index register and memory (vectors I1 to I27) -/

/-- I2. -/
theorem test_ldI : (after ((prog 0xAFFF).setIndex 0xFFFF)).map (·.index) = some 0x0FFF := by decide
/-- I5, I6. -/
theorem test_addI : (after (((prog 0xF31E).setIndex 0x0FFF).setV 3 1)).map (fun t => (t.index, t.getV 15, record t)) =
      some (0x1000, 0, []) ∧
    (after (((prog 0xF31E).setIndex 0xFFFF).setV 3 2)).map (·.index) = some 1 := by decide
/-- I9. -/
theorem test_ldF : (after ((prog 0xF029).setV 0 0x1A)).map (·.index) = some 0x32 := by decide
/-- I12. -/
theorem test_ldB : (after (((prog 0xF533).setIndex 0x300).setV 5 156)).map
    (fun t => (t.mem.read 0x300, t.mem.read 0x301, t.mem.read 0x302, t.index)) = some (1, 5, 6, 0x300) := by decide
/-- I17. -/
theorem test_ldBFault : (after (((prog 0xF533).setIndex 0xFFE).setV 5 0x7B)).map
    (fun t => (t.mem.read 0xFFE, t.mem.read 0xFFF, t.pc, record t)) =
      some (1, 2, 0x202, [2, 0x200, 0xF533, 0x1000]) := by decide
/-- I20. -/
theorem test_storeRegs : (after (((((prog 0xF255).setIndex 0x400).setV 0 1).setV 1 2).setV 2 3)).map
    (fun t => (t.mem.read 0x400, t.mem.read 0x401, t.mem.read 0x402, t.mem.read 0x403, t.index)) =
      some (1, 2, 3, 0, 0x400) := by decide
/-- I22. -/
theorem test_storeRegsFault : (after (((((prog 0xF255).setIndex 0xFFE).setV 0 1).setV 1 2).setV 2 3)).map
    (fun t => (t.mem.read 0xFFE, t.mem.read 0xFFF, record t)) = some (1, 2, [2, 0x200, 0xF255, 0x1000]) := by decide
/-- I24. -/
theorem test_loadRegs : (after ((poke (poke (poke ((prog 0xF265).setIndex 0x400) 0x400 9) 0x401 8) 0x402 7).setV 3 0x33)).map
    (fun t => (t.getV 0, t.getV 1, t.getV 2, t.getV 3, t.index)) = some (9, 8, 7, 0x33, 0x400) := by decide
/-- I25. -/
theorem test_loadRegsFault : (after ((poke (poke ((prog 0xF265).setIndex 0xFFE) 0xFFE 0xAA) 0xFFF 0xBB).setV 2 0x11)).map
    (fun t => (t.getV 0, t.getV 1, t.getV 2, record t)) =
      some (0xAA, 0xBB, 0x11, [2, 0x200, 0xF265, 0x1000]) := by decide

/-! ## Display (vectors D1 to D15) -/

/-- D1, three of its pixels. -/
theorem test_cls : (after ((((prog 0x00E0).setPixel 0 0 true).setPixel 63 31 true).setV 15 1)).map
    (fun t => (t.pixel 0 0, t.pixel 63 31, t.getV 15)) = some (false, false, 1) := by decide
/-- D2: the wrap on the last row. -/
theorem test_drwWrap : (after (((poke (prog 0xD121) 0x300 0xF0).setIndex 0x300 |>.setV 1 62).setV 2 31)).map
    (fun t => (t.pixel 62 31, t.pixel 63 31, t.pixel 0 31, t.pixel 1 31, t.pixel 2 31, t.getV 15)) =
      some (true, true, true, true, false, 0) := by decide
/-- D13: the column is the old `VF`, and the collision does not move the second pixel. -/
theorem test_drwFlagColumn : (after ((((poke (prog 0xDF11) 0x300 0xC0).setIndex 0x300 |>.setV 15 9).setV 1 2).setPixel 9 2
      true)).map (fun t => (t.pixel 9 2, t.pixel 10 2, t.pixel 2 2, t.getV 15)) = some (false, true, false, 1) := by decide
/-- D9: a fault at the third row. -/
theorem test_drwFault : (after ((poke (poke (prog 0xD123) 0xFFE 0x80) 0xFFF 0x40).setIndex 0xFFE |>.setPixel 0 0 true)).map
    (fun t => (t.pixel 0 0, t.pixel 1 1, t.getV 15, record t)) =
      some (false, true, 1, [2, 0x200, 0xD123, 0x1000]) := by decide
/-- D6: a sprite bit of 0 over a lit pixel. -/
theorem test_drwNoCollision : (after ((poke (prog 0xD011) 0x300 0xF0).setIndex 0x300 |>.setV 0 60 |>.setPixel 2 0 true)).map
    (fun t => (t.pixel 60 0, t.pixel 63 0, t.pixel 2 0, t.getV 15)) = some (true, true, true, 0) := by decide

/-! ## Keys, timers, random (vectors K1 to K17, T1 to T17, R3) -/

/-- K1, K2. -/
theorem test_skp : (after (hold ((prog 0xE19E).setV 1 4) 0x0010)).map (·.pc) = some 0x204 ∧
    (after (hold ((prog 0xE19E).setV 1 4) 0xFFEF)).map (·.pc) = some 0x202 := by decide
/-- K6. -/
theorem test_skpFault : (after (hold ((prog 0xE19E).setV 1 0x10) 0xFFFF)).map (fun t => (t.pc, record t)) =
    some (0x202, [5, 0x200, 0xE19E, 0x10]) := by decide
/-- K3, K4. -/
theorem test_sknp : (after (hold ((prog 0xE1A1).setV 1 4) 0x0010)).map (·.pc) = some 0x202 ∧
    (after (hold ((prog 0xE1A1).setV 1 4) 0x0000)).map (·.pc) = some 0x204 := by decide
/-- K7. -/
theorem test_sknpFault : (after ((prog 0xE1A1).setV 1 0xFF)).map (fun t => (t.pc, record t)) =
    some (0x202, [5, 0x200, 0xE1A1, 0xFF]) := by decide
/-- K10, K16: the timer check runs before the read. -/
theorem test_ldVxDT : (after ((prog 0xF407).setDt 42)).map (·.getV 4) = some 0x2A ∧
    (after (atTime (((prog 0xF307).setDt 10).setDtLast 1000000) 1166670)).map (fun t => (t.dt, t.dtLast, t.getV 3)) =
      some (0, 1166670, 0) := by decide
/-- K11. -/
theorem test_ldVxK : (after (press (prog 0xF40A) 9)).map (fun t => (t.getV 4, t.pc, t.keyWaitPort)) =
    some (9, 0x202, false) := by decide
/-- K11: during the wait. -/
theorem test_ldVxKWaits : (after (prog 0xF40A)).map (fun t => (t.getV 4, t.pc, t.keyWaitPort, t.stepResult)) =
    some (0, 0x202, true, none) := by decide
/-- K13. -/
theorem test_ldDTVx : (after ((prog 0xF315).setV 3 60)).map (fun t => (t.dt, t.dtLast)) = some (60, 0) := by decide
/-- K14. -/
theorem test_ldSTVx : (after ((prog 0xF318).setV 3 30)).map (fun t => (t.st, t.stLast, t.soundTriggers)) =
    some (30, 0, 0) := by decide
/-- T1, T2. -/
theorem test_strictPeriod :
    (after (atTime ((prog 0x6000).setDt 5) 16667)).map (fun t => (t.dt, t.dtLast)) = some (5, 0) ∧
    (after (atTime ((prog 0x6000).setDt 5) 16668)).map (fun t => (t.dt, t.dtLast)) = some (4, 16668) := by decide
/-- T6, T8. -/
theorem test_clampAndRest :
    (after (atTime ((prog 0x6000).setDt 3) 183337)).map (fun t => (t.dt, t.dtLast)) = some (0, 183337) ∧
    (after (atTime (prog 0x6000) 1000000000)).map (fun t => (t.dt, t.dtLast)) = some (0, 0) := by decide
/-- T9: `TIME` went back. -/
theorem test_timeWentBack :
    (after (atTime (((prog 0x6000).setDt 5).setDtLast 100000) 50000)).map (fun t => (t.dt, t.dtLast)) =
      some (5, 100000) := by decide
/-- T13: one trigger for eleven ticks. -/
theorem test_oneTrigger : (after (atTime ((prog 0x6000).setSt 3) 200000)).map (fun t => (t.st, t.stLast, t.soundTriggers)) =
    some (0, 200000, 1) := by decide
/-- T16: independent timestamps, one sample. -/
theorem test_independentTimers :
    (after (atTime ((((prog 0x6000).setDt 4).setSt 2).setStLast 30000) 50000)).map
      (fun t => (t.dt, t.st, t.dtLast, t.stLast, t.soundTriggers)) = some (2, 1, 50000, 50000, 1) := by decide
/-- T17: the timer check of a faulting step is committed. -/
theorem test_faultKeepsTimerCheck :
    (after (atTime ((prog 0x8009).setSt 2) 50000)).map (fun t => (t.st, t.stLast, t.soundTriggers, record t)) =
      some (0, 50000, 1, [1, 0x200, 0x8009, 0]) := by decide
/-- R1 and R2, the draw `0xC4` presented. -/
theorem test_rnd : ((after (drawing (prog 0xC2FF) 0xC4)).map (fun t => (t.getV 2, t.draws)),
    (after (drawing (prog 0xC20F) 0xC4)).map (·.getV 2)) = (some (0xC4, 1), some 0x04) := by decide
/-- R3: mask 0 gives 0 whatever is drawn, none being named, and the source still advances. -/
theorem test_rndFree : ∃ t, step ((prog 0xC200).setV 2 0x55) = .next t ∧ t.getV 2 = 0 ∧ t.rng = Config.rngNext 0 :=
  ⟨_, rfl, BitVec.and_zero, rfl⟩

/-! ## Reset and load (vectors L1, L2, L4, L7) -/

/-- L1. -/
theorem test_reset : (afterAll [.reset 777]).map (fun t => (t.pc, t.sp, t.dtLast, t.stLast, t.mem.length, t.keyWaitPort)) =
    some (0x200, 0, 777, 777, 0, false) := by decide
/-- L6, its first and last byte: `FONT` is put at 0x000 to 0x04F. -/
theorem test_resetFont :
    let font : Vector Byte 80 := ((Vector.replicate 80 0#8).set 0 0xF0#8).set 79 0x80#8
    let s : State := { State.reset with cfg := { State.reset.cfg with font := font } }
    ((s.resetAt 0).mem.read 0, (s.resetAt 0).mem.read 0x4F, (s.resetAt 0).mem.read 0x50) = (0xF0#8, 0x80#8, 0#8) := by
  decide
/-- L2. -/
theorem test_load : (afterAll [.reset 0, .load [0x12, 0x00]]).map (fun t => (t.mem, t.pc)) =
    some ([(0x200, 0x12)], 0x200) := by decide
/-- L4. -/
theorem test_loadTooLong :
    loadResult (List.replicate 3585 1#8) = .rejected ∧ loadResult (List.replicate 3584 1#8) = .loaded := by
  constructor <;> (unfold loadResult maxImage; rw [List.length_replicate]; rfl)
/-- L7. -/
theorem test_resetClearsFault : (afterAll [.step State.reset.ports, .reset 5]).map (fun t => (record t, t.pc)) =
    some ([], 0x200) := by decide
/-- R318: no load after a step. -/
theorem test_lateLoad : performAll [.step State.reset.ports, .load []] State.reset = .refused .loadOutsideWindow := rfl
/-- S7, its first step: the wait goes on without an event and ends with it; no timer check runs meanwhile. -/
theorem test_waitThenEvent :
    let quiet : Ports := { time := 0, keyHeld := 0, keyEvent := none, draw := none }
    let event : Ports := { time := 900000, keyHeld := 0, keyEvent := some 7, draw := none }
    (afterAll [.load [0xF0, 0x0A], .step quiet, .step quiet, .step event]).map
      (fun t => (t.getV 0, t.pc, t.keyWaitPort, t.stepResult)) = some (7, 0x202, false, some .ok) := by decide
/-- R214: pixel `(63, 31)` is element 2047, pixel `(3, 2)` is element 131. -/
theorem test_fbElement :
    ((State.reset.setPixel 63 31 true).fbElement 2047, (State.reset.setPixel 3 2 true).fbElement 131) = (true, true) := by
  decide
/-- The first step after reset runs a placed word. -/
theorem test_withFetchWord : (after (State.reset.withFetchWord 16 0x6A3C)).map (fun t => (t.pc, t.getV 10)) =
    some (0x202, 0x3C) := by decide

/-! ## Witnesses: a state that meets the hypotheses of each statement that has any, for each of its clauses -/

theorem prog_wf : (prog 0x1200).mem.wf := by decide

theorem witness_EncodeInvertsDecode : decodeWord 0xD125 = .ok (.drw 1 2 5) := by decide

theorem witness_StepRunsTheDecodedInstruction :
    (prog 0xD125).running ∧ (prog 0xD125).fetch = .ok 0xD125 ∧ decodeWord 0xD125 = .ok (.drw 1 2 5) :=
  ⟨⟨rfl, rfl⟩, by decide, by decide⟩

theorem witness_FetchIsBigEndianAndBoundsChecked :
    (State.reset.setPc 0xFFE).pc.toNat ≤ 0xFFE ∧ (State.reset.setPc 0xFFF).pc.toNat = 0xFFF ∧
    0x1000 ≤ (State.reset.setPc 0x1000).pc.toNat := by decide

theorem witness_FetchFaultLeavesPcAndRecordsTheAddress :
    (State.reset.setPc 0xFFF).running ∧ 0xFFE < (State.reset.setPc 0xFFF).pc.toNat ∧
    (State.reset.setPc 0xFFFF).running ∧ 0xFFE < (State.reset.setPc 0xFFFF).pc.toNat :=
  ⟨⟨rfl, rfl⟩, by decide, ⟨rfl, rfl⟩, by decide⟩

theorem witness_InvalidWordFaultsAfterTheAdvance :
    (prog 0x8009).running ∧ (prog 0x8009).fetch = .ok 0x8009 ∧ wordLegal 0x8009 = false :=
  ⟨⟨rfl, rfl⟩, by decide, by decide⟩

/-- A halted state, and requests of each kind that have a next state from it. -/
theorem witness_HaltedEngineChangesNothingUntilReset :
    let s := State.reset.raise .stackUnderflow 0x200 0x00EE 0
    s.fault = some ⟨.stackUnderflow, 0x200, 0x00EE, 0⟩ ∧ (∃ t, perform (.reset 5) s = .next t) ∧
    (∃ t, perform (.step s.ports) s = .next t) ∧ ∃ t, perform (.load []) s = .next t :=
  ⟨rfl, ⟨_, rfl⟩, ⟨_, rfl⟩, ⟨_, rfl⟩⟩

theorem witness_WaitingStepEndsOnlyWithAKeyEvent :
    let s := State.reset.setKeyWait (some 15)
    s.fault = none ∧ s.keyWait = some 15 ∧ s.ports.keyEvent = none ∧ (press s 15).ports.keyEvent = some 15 :=
  ⟨rfl, rfl, rfl, rfl⟩

/-- A fetch fault, an invalid word and an execute-phase fault. -/
theorem witness_StepFaultRecordNamesTheFetchedWord :
    (∃ t r, step (State.reset.setPc 0xFFF) = .next t ∧ t.fault = some r) ∧
    (State.reset.setPc 0xFFF).fetch = .error 0x1000 ∧
    (∃ t r, step (prog 0x8009) = .next t ∧ t.fault = some r) ∧ (prog 0x8009).fetch = .ok 0x8009 ∧
    (∃ t r, step (prog 0x00EE) = .next t ∧ t.fault = some r) ∧ decodeWord 0x00EE = .ok .ret :=
  ⟨⟨_, _, rfl, rfl⟩, by decide, ⟨_, _, rfl, rfl⟩, by decide, ⟨_, _, rfl, rfl⟩, by decide⟩

theorem witness_StoreIsSeenByTheNextFetch :
    let s := (State.reset.setPc 0xFFE).setIndex 0xFFE
    s.mem.wf ∧ 1 ≤ (1 : RegIx).toNat ∧ s.index = s.pc ∧ s.index.toNat + (1 : RegIx).toNat < 4096 ∧
    ∃ t, exec (.storeRegs 1) s = .next t :=
  ⟨by decide, by decide, rfl, by decide, ⟨_, rfl⟩⟩

theorem witness_PlacedWordIsTheOneTheStepRuns : State.reset.mem.wf := by decide

theorem witness_ByteWriteChangesThatByteAlone : (prog 0x1200).mem.wf ∧ 4095 < 4096 ∧ 4096 ≤ 4096 :=
  ⟨prog_wf, by decide, by decide⟩

/-- One tick and one microsecond later both timers have an event; at one tick exactly neither has. -/
theorem witness_TimerCheckFollowsTheDecayRule :
    let s := (atTime State.reset 16668).setDt 1 |>.setSt 1
    let q := (atTime State.reset 16667).setDt 1 |>.setSt 1
    s.cfg.wf ∧ ((s.ports.time.toNat : Int) - s.dtLast.toNat > s.cfg.tickUs ∧ s.dt ≠ 0) ∧
    ((s.ports.time.toNat : Int) - s.stLast.toNat > s.cfg.tickUs ∧ s.st ≠ 0) ∧
    ¬ ((q.ports.time.toNat : Int) - q.dtLast.toNat > q.cfg.tickUs) := by decide

theorem witness_TimerCheckIsCommittedByEveryStep :
    (prog 0x8009).running ∧ (∃ t, step (prog 0x8009) = .next t) ∧ (prog 0x8009).nextInstr = none :=
  ⟨⟨rfl, rfl⟩, ⟨_, rfl⟩, by decide⟩

theorem witness_DelayTimerNeverRisesBetweenWrites :
    (∃ t, perform (.step State.reset.ports) (prog 0x1200) = .next t) ∧ (prog 0x1200).nextInstr = some (.jp 0x200) ∧
    ∃ t, perform (.load [1]) State.reset = .next t :=
  ⟨⟨_, rfl⟩, by decide, ⟨_, rfl⟩⟩

/-- The clauses of the flag writers for a destination other than `VF`, and for a third register. -/
theorem witness_FlagWriters : (14 : RegIx) ≠ vf ∧ (0 : RegIx) ≠ 14 ∧ (0 : RegIx) ≠ vf := by decide

theorem witness_CallPushesOrOverflows :
    (State.reset.setStack (Vector.replicate 16 0) 15).sp.val = (15 : Fin 16).val ∧
    (State.reset.setStack (Vector.replicate 16 0) 16).sp.val = 16 := by decide

theorem witness_ReturnPopsOrUnderflows :
    (State.reset.setStack (Vector.replicate 16 0) 16).sp.val = (15 : Fin 16).val + 1 ∧ State.reset.sp.val = 0 := by decide

theorem witness_ReturnUndoesCall :
    State.reset.sp.val < 16 ∧ ∃ t, exec (.call 0x300) State.reset = .next t ∧ t.stack = t.stack ∧ t.sp = t.sp :=
  ⟨by decide, _, rfl, rfl, rfl⟩

theorem witness_BcdStoresThreeDigits : State.reset.mem.wf ∧ (State.reset.setIndex 0xFFD).effAddr 2 < 4096 := by decide

theorem witness_RegisterStoreAndLoad :
    State.reset.mem.wf ∧ (State.reset.setIndex 0xFF0).effAddr (15 : RegIx).toNat < 4096 := by decide

/-- The last place from which `Fx33` and `Fx55` with `x = 1` fault, and the farthest. -/
theorem witness_StorePastMemoryKeepsTheBytesBefore :
    let s := State.reset.setIndex 0xFFE
    let q := State.reset.setIndex 0xFFFF
    s.mem.wf ∧ 4096 < s.effAddr 0 + (bcdDigits (s.getV 0)).length ∧ 4096 < q.effAddr 0 + (q.regList 1).length := by decide

theorem witness_LoadPastMemoryKeepsTheRegistersBefore :
    4096 ≤ (State.reset.setIndex 0xFFF).effAddr (1 : RegIx).toNat := by decide

theorem witness_StoreThenLoadRoundTripsAllRegisters :
    let s := State.reset.setIndex 0xFF0
    s.mem.wf ∧ s.effAddr 15 < 4096 ∧ ∃ t, exec (.storeRegs 15) s = .next t ∧ t.mem = t.mem ∧ t.index = s.index :=
  ⟨by decide, by decide, _, rfl, rfl, rfl⟩

/-- D7, no rows with `I` above memory: no pixel changes, `VF` is 0, no fault. -/
theorem witness_DrawXorsWithNoRows :
    let s := ((((State.reset.setIndex 0xFFFF).setV 1 5).setV 2 5).setV vf 1).setPixel 5 5 true
    4096 < s.index.toNat ∧ ¬ s.collision 5 5 0 ∧
    ∃ t, exec (.drw 1 2 0) s = .next t ∧ t.fb = s.fb ∧ t.getV vf = 0 ∧ t.fault = none :=
  ⟨by decide, fun ⟨_, _, h, _⟩ => absurd h (Nat.not_lt_zero _), _, rfl, rfl, by decide, rfl⟩

/-- A sprite that ends at the last byte; a collision and none. -/
theorem witness_DrawXorsTheSpriteAndReportsCollision :
    let s := (poke State.reset 0xFFF 0x80).setIndex 0xFFF
    s.index.toNat + (1 : Nibble).toNat ≤ 4096 ∧ (s.setPixel 0 0 true).collision 0 0 1 ∧ ¬ s.collision 0 0 1 := by
  refine ⟨by decide, ⟨0, 0, by decide, by decide, by decide, by decide⟩, ?_⟩
  rintro ⟨row, col, hr, hc, -, hp⟩
  have hblank : ∀ (px : Fin 64) (py : Fin 32), ((poke State.reset 0xFFF 0x80).setIndex 0xFFF).pixel px py = false := by
    intro px py; simp [State.pixel, poke, State.setIndex, State.setMem, State.reset, Framebuffer.blank]
  rw [hblank] at hp
  exact Bool.noConfusion hp

theorem witness_DrawPastMemoryKeepsTheRowsBefore :
    let s := (poke State.reset 0xFFF 0x80).setIndex 0xFFF
    (2 : Nibble) ≠ 0 ∧ 4096 < s.index.toNat + (2 : Nibble).toNat ∧
    (s.setPixel 0 0 true).collision 0 0 (4096 - s.index.toNat) :=
  ⟨by decide, by decide, ⟨0, 0, by decide, by decide, by decide, by decide⟩⟩

theorem witness_DrawingTwiceRestoresTheFramebuffer :
    (1 : RegIx) ≠ vf ∧ (2 : RegIx) ≠ vf ∧ State.reset.index.toNat + (15 : Nibble).toNat ≤ 4096 ∧
    ∃ t, exec (.drw 1 2 15) State.reset = .next t :=
  ⟨by decide, by decide, by decide, _, rfl⟩

theorem witness_KeySkipsTestOneHeldBitOrFault :
    ((State.reset.setV 1 15).getV 1).toNat ≤ 15 ∧ 15 < ((State.reset.setV 1 16).getV 1).toNat := by decide

theorem witness_KeyReadTakesTheEventOrWaits :
    (press State.reset 15).ports.keyEvent = some 15 ∧ State.reset.ports.keyEvent = none := by decide

/-- One instruction that leaves each kind of state alone: a store for the registers, a load for memory and the rest. -/
theorem witness_FramesOverAllInstructions :
    (∃ t, exec (.storeRegs 15) State.reset = .next t) ∧ (Instr.storeRegs 15).writesReg 15 = false ∧
    (Instr.storeRegs 15).writesIndex = false ∧ (Instr.storeRegs 15).writesPc = false ∧
    (Instr.storeRegs 15).usesStack = false ∧ (Instr.storeRegs 15).writesFb = false ∧
    (State.reset.setIndex 1).effAddr 0 = 1 ∧ (0 : Nat) < (State.reset.setIndex 1).effAddr 0 ∧
    (∃ t, exec (.storeRegs 15) (State.reset.setIndex 1) = .next t) ∧
    (State.reset.setIndex 1).effAddr 0 + (Instr.storeRegs 15).storeLength ≤ 17 :=
  ⟨⟨_, rfl⟩, rfl, rfl, rfl, rfl, rfl, by decide, by decide, ⟨_, rfl⟩, by decide⟩

/-- The steps of the non-dependence statements, and a stack that differs in a dead entry. -/
theorem witness_NonDependence :
    (prog 0x00E0).nextInstr = some .cls ∧ (∃ t, step (prog 0x00E0) = .next t) ∧
    ∀ k : Fin 16, k.val < (prog 0x00E0).sp.val → ((Vector.replicate 16 7#16)[k]) = (prog 0x00E0).stack[k] :=
  ⟨by decide, ⟨_, rfl⟩, fun k hk => absurd hk (Nat.not_lt_zero _)⟩

/-- The three ways the draw comes: named, not named, a generator's. -/
theorem witness_RandomByteIsMaskedAndTheSourceAdvances :
    (drawing State.reset 0xC4).ports.draw = some 0xC4 ∧ State.reset.ports.draw = none ∧
    let g := drawing State.reset State.reset.generatorByte
    g.ports.draw = some g.generatorByte := ⟨rfl, rfl, rfl⟩

theorem witness_SourceAdvancesOncePerExecutedRnd :
    (prog 0xC2FF).nextInstr = some (.rnd 2 0xFF) ∧ (∃ t, perform (.step State.reset.ports) (prog 0xC2FF) = .next t) ∧
    (prog 0x00E0).nextInstr = some .cls ∧ (∃ t, perform (.step State.reset.ports) (prog 0x00E0) = .next t) ∧
    ∃ t, perform (.reset 7) State.reset = .next t :=
  ⟨by decide, ⟨_, rfl⟩, by decide, ⟨_, rfl⟩, _, rfl⟩

theorem witness_LoadCopiesTheImageOrRejectsItWhole :
    State.reset.loadOpen = true ∧ State.reset.mem.wf ∧ (List.replicate 3584 1#8).length ≤ 3584 ∧
    3584 < (List.replicate 3585 1#8).length :=
  ⟨rfl, by decide, by rw [List.length_replicate], by rw [List.length_replicate]; decide⟩

theorem witness_LateLoadIsRefused :
    State.reset.running ∧ (∃ t, step State.reset = .next t) ∧ (∃ t, perform (.load [1]) State.reset = .next t) ∧
    State.reset.closeLoad.loadOpen = false ∧
    ∃ t, perform (.step State.reset.ports) State.reset.closeLoad = .next t :=
  ⟨⟨rfl, rfl⟩, ⟨_, rfl⟩, ⟨_, rfl⟩, rfl, _, rfl⟩

theorem prog_inv : (prog 0x1200).Inv where
  memory := prog_wf
  pcReach := by decide
  stackReach := fun _ hk => absurd hk (Nat.not_lt_zero _)
  faultLegal := fun _ h => by cases h
  loadWindow := fun _ => ⟨rfl, rfl⟩

theorem witness_EveryStepKeepsTheStateLegal : (prog 0x1200).Inv ∧ ∃ t, step (prog 0x1200) = .next t :=
  ⟨prog_inv, _, rfl⟩

/-- Each of the three requests completes. -/
theorem witness_EveryRequestKeepsTheStateLegal :
    (prog 0x1200).Inv ∧ (∃ t, perform (.load [1]) (prog 0x1200) = .next t) ∧
    (∃ t, perform (.step State.reset.ports) (prog 0x1200) = .next t) ∧
    ∃ t, perform (.reset 7) (prog 0x1200) = .next t :=
  ⟨prog_inv, ⟨_, rfl⟩, ⟨_, rfl⟩, _, rfl⟩

theorem witness_EveryReachableStateIsLegal : Reachable (State.reset.resetAt 7) := .afterReset _ _

end Sys2Proof.Tests
end

section
/-! What an instruction and a step can do, said once (`Effect`, `StepEffect`), and the frames read off it. -/

namespace Sys2Proof.Machine

/-! ## Stores, loads, draws and the key wait as updates -/

/-- The record of a data access of the word `w` from address `a` up that runs out of range. -/
def State.accessRecord (s : State) (w : Word) (a : Nat) : FaultRecord :=
  { cause := .memoryOutOfRange, pc := s.pc - 2#16, opcode := w, ea := BitVec.ofNat 17 (max a 4096) }

/-- A store writes the bytes that fit, and beside them only the fault record. -/
theorem State.storeSeq_fields (s : State) (w : Word) (a : Nat) (bs : List Byte) :
    s.storeSeq w a bs =
      { s with mem := s.mem.writeBytes a (bs.take (4096 - a)), fault := (s.storeSeq w a bs).fault } := by
  by_cases hfit : a + bs.length ≤ 4096
  · rw [State.storeSeq_fits s w a bs hfit, List.take_of_length_le (by omega)]; rfl
  · by_cases hnil : bs = []
    · subst hnil; rw [List.take_nil]; rfl
    · rw [State.storeSeq_overflows s w a bs hnil (by omega)]; rfl

theorem State.storeSeq_fault (s : State) (w : Word) (a : Nat) (bs : List Byte) :
    (s.storeSeq w a bs).fault = s.fault ∨ (s.storeSeq w a bs).fault = some (s.accessRecord w a) := by
  by_cases hfit : a + bs.length ≤ 4096
  · exact .inl (by rw [State.storeSeq_fits s w a bs hfit]; rfl)
  · by_cases hnil : bs = []
    · exact .inl (by rw [hnil]; rfl)
    · exact .inr (by rw [State.storeSeq_overflows s w a bs hnil (by omega)]; rfl)

theorem State.storeSeq_mem_wf {s : State} (h : s.mem.wf) (w : Word) (a : Nat) (bs : List Byte) :
    (s.storeSeq w a bs).mem.wf := by
  rw [State.storeSeq_fields]
  by_cases ha : a ≤ 4096
  · refine Memory.writeBytes_wf h a _ ?_
    have := List.length_take_le (4096 - a) bs
    simp only [memSize]; omega
  · rw [show 4096 - a = 0 by omega]; exact h

theorem State.loadSeq_fault_cases (s : State) (w : Word) (a i n : Nat) :
    (s.loadSeq w a i n).fault = s.fault ∨ (s.loadSeq w a i n).fault = some (s.accessRecord w a) := by
  rw [State.loadSeq_fault]
  split
  · exact .inl rfl
  · exact .inr rfl

theorem State.drawRows_fault_cases (s : State) (w : Word) (vx vy row n : Nat) :
    (s.drawRows w vx vy row n).fault = s.fault ∨
      (s.drawRows w vx vy row n).fault = some (s.accessRecord w (s.effAddr row)) := by
  by_cases hfit : s.effAddr row + n ≤ 4096 ∨ n = 0
  · exact .inl (State.drawRows_fault s w vx vy row n hfit)
  · right
    rw [State.drawRows_overflows s w vx vy row n (by omega) (by omega), State.raiseExec_fault, State.drawRows_fields]
    rfl

/-- A draw writes no register but `VF`, out of range too. -/
theorem State.getV_drawCols_of_ne_vf (s : State) (vx : Nat) (py : Fin 32) (b : Byte) (col n : Nat) {r : RegIx}
    (hr : r ≠ vf) : (s.drawCols vx py b col n).getV r = s.getV r := by
  induction n generalizing s col with
  | zero => rfl
  | succ n ih => rw [State.drawCols, ih, State.getV_drawPixel, if_neg fun h => hr h.1]

theorem State.getV_drawRows_of_ne_vf (s : State) (w : Word) (vx vy row n : Nat) {r : RegIx} (hr : r ≠ vf) :
    (s.drawRows w vx vy row n).getV r = s.getV r := by
  induction n generalizing s row with
  | zero => rfl
  | succ n ih =>
    by_cases ha : s.effAddr row < 4096
    · rw [State.drawRows_succ s w vx vy row n ha, ih, State.getV_drawCols_of_ne_vf _ _ _ _ _ _ hr]
    · rw [State.drawRows, State.memRead_ge s (by omega)]; rfl

theorem State.waitKey_of_event {s : State} {k : BitVec 4} (h : s.ports.keyEvent = some k) (x : RegIx) :
    s.waitKey x = (s.setKeyWait none).setV x (k.setWidth 8) := by
  unfold State.waitKey; rw [h]

theorem State.waitKey_of_no_event {s : State} (h : s.ports.keyEvent = none) (x : RegIx) :
    s.waitKey x = s.setKeyWait (some x) := by
  unfold State.waitKey; rw [h]

/-- The key wait changes its destination and its own status only. -/
theorem State.waitKey_fields (s : State) (x : RegIx) :
    s.waitKey x = { s with v := (s.waitKey x).v, keyWait := (s.waitKey x).keyWait } := by
  unfold State.waitKey
  split <;> rfl

theorem State.getV_waitKey_of_ne (s : State) {x r : RegIx} (hr : r ≠ x) : (s.waitKey x).getV r = s.getV r := by
  unfold State.waitKey
  split
  · exact State.getV_setV_ne _ _ hr
  · rfl

/-- An event completes the wait with its code in the destination (R233). -/
theorem State.waitKey_completes {s : State} {k : BitVec 4} (h : s.ports.keyEvent = some k) (x : RegIx) :
    ((s.waitKey x).getV x).toNat = k.toNat ∧ (s.waitKey x).keyWait = none ∧
      (∀ r, r ≠ x → (s.waitKey x).getV r = s.getV r) ∧
      s.waitKey x = { s with v := (s.waitKey x).v, keyWait := none } := by
  refine ⟨?_, ?_, fun r hr => State.getV_waitKey_of_ne s hr, ?_⟩ <;> rw [State.waitKey_of_event h]
  · rw [State.getV_setV_self, BitVec.toNat_setWidth, Nat.mod_eq_of_lt (by omega)]
  · rfl
  · rfl

/-! ## The four instructions that choose between a result and a raise -/

theorem exec_ret_of_pos {s : State} (h : 0 < s.sp.val) :
    exec .ret s =
      .next ((s.setStack s.stack ⟨s.sp.val - 1, by omega⟩).setPc (s.stack[s.sp.val - 1]'(by omega))) := by
  simp only [exec, execRet, State.pop_of_pos s h]

theorem exec_ret_of_empty {s : State} (h : s.sp.val = 0) :
    exec .ret s = .next (s.raiseExec .stackUnderflow (encode .ret) 0) := by
  simp only [exec, execRet, State.pop_empty s h]

theorem exec_call_of_lt {s : State} (nnn : Addr12) (h : s.sp.val < 16) :
    exec (.call nnn) s =
      .next ((s.setStack (s.stack.set s.sp.val s.pc h) ⟨s.sp.val + 1, by omega⟩).setPc (addrOperand nnn)) := by
  simp only [exec, execCall, State.push_of_lt s s.pc h]

theorem exec_call_of_full {s : State} (nnn : Addr12) (h : s.sp.val = 16) :
    exec (.call nnn) s = .next (s.raiseExec .stackOverflow (encode (.call nnn)) 0) := by
  simp only [exec, execCall, State.push_full s s.pc h]

theorem keyOperand_of_le {b : Byte} (h : b.toNat ≤ 15) : keyOperand b = some (b.setWidth 4) := if_pos h

theorem keyOperand_of_ge {b : Byte} (h : 16 ≤ b.toNat) : keyOperand b = none := if_neg (by omega)

theorem exec_skp_of_le {s : State} {x : RegIx} (h : (s.getV x).toNat ≤ 15) :
    exec (.skp x) s = .next (s.skipIf (s.held ((s.getV x).setWidth 4))) := by
  simp only [exec, execSkp, keyOperand_of_le h]

theorem exec_skp_of_ge {s : State} {x : RegIx} (h : 16 ≤ (s.getV x).toNat) :
    exec (.skp x) s = .next (s.raiseExec .invalidKeyIndex (encode (.skp x)) (s.getV x).toNat) := by
  simp only [exec, execSkp, keyOperand_of_ge h]

theorem exec_sknp_of_le {s : State} {x : RegIx} (h : (s.getV x).toNat ≤ 15) :
    exec (.sknp x) s = .next (s.skipIf (!s.held ((s.getV x).setWidth 4))) := by
  simp only [exec, execSknp, keyOperand_of_le h]

theorem exec_sknp_of_ge {s : State} {x : RegIx} (h : 16 ≤ (s.getV x).toNat) :
    exec (.sknp x) s = .next (s.raiseExec .invalidKeyIndex (encode (.sknp x)) (s.getV x).toNat) := by
  simp only [exec, execSknp, keyOperand_of_ge h]

/-! ## What an instruction can do -/

/-- What an instruction does to the state it runs in, by the kind of state it writes; the frame lemmas and the invariant
split on this, not on the 34 instructions. -/
inductive Effect (s : State) : Instr → State → Prop where
  | reg {i : Instr} {x : RegIx} (b : Byte) (hx : i.writesReg x = true) : Effect s i (s.setV x b)
  | regAndFlag {i : Instr} {x : RegIx} (r : Byte) (c : Bool) (hx : i.writesReg x = true) (hf : i.writesReg vf = true) :
      Effect s i (s.setWithFlag x r c)
  | index {i : Instr} (w : Word) (hi : i.writesIndex = true) : Effect s i (s.setIndex w)
  | jump {i : Instr} {w : Word} (hi : i.writesPc = true) (hw : w.toNat ≤ 0x10FE) : Effect s i (s.setPc w)
  | skip {i : Instr} (c : Bool) (hi : i.writesPc = true) : Effect s i (s.skipIf c)
  | call (nnn : Addr12) (h : s.sp.val < 16) :
      Effect s (.call nnn)
        ((s.setStack (s.stack.set s.sp.val s.pc h) ⟨s.sp.val + 1, by omega⟩).setPc (addrOperand nnn))
  | ret (h : 0 < s.sp.val) :
      Effect s .ret ((s.setStack s.stack ⟨s.sp.val - 1, by omega⟩).setPc (s.stack[s.sp.val - 1]'(by omega)))
  | clear : Effect s .cls (s.setFb Framebuffer.blank)
  | draw (x y : RegIx) (n : Nibble) (vx vy : Nat) :
      Effect s (.drw x y n) ((s.setV vf 0#8).drawRows (encode (.drw x y n)) vx vy 0 n.toNat)
  | store {i : Instr} (bs : List Byte) (hlen : bs.length = i.storeLength) (hw : accessesMemory (encode i)) :
      Effect s i (s.storeSeq (encode i) (s.effAddr 0) bs)
  | load (x : RegIx) : Effect s (.loadRegs x) (s.loadSeq (encode (.loadRegs x)) (s.effAddr 0) 0 (regCount x))
  | delay (x : RegIx) (b : Byte) : Effect s (.ldDTVx x) (s.setDt b)
  | sound (x : RegIx) (b : Byte) : Effect s (.ldSTVx x) (s.setSt b)
  | wait (x : RegIx) : Effect s (.ldVxK x) (s.waitKey x)
  | random (x : RegIx) (nn b : Byte) : Effect s (.rnd x nn) (s.advanceRng.setV x b)
  | raise {i : Instr} {c : Fault} (ea : Nat) (hc : i.mayRaise c = true)
      (hlegal : FaultRecord.legal ⟨c, s.pc - 2#16, encode i, BitVec.ofNat 17 ea⟩ s.pc) :
      Effect s i (s.raiseExec c (encode i) ea)

theorem addrOperand_toNat (nnn : Addr12) : (addrOperand nnn).toNat = nnn.toNat := by
  rw [addrOperand, BitVec.toNat_setWidth, Nat.mod_eq_of_lt (by omega)]

theorem addrOperand_add_wideOperand_le (nnn : Addr12) (b : Byte) :
    (addrOperand nnn + wideOperand b).toNat ≤ 0x10FE := by
  have hnnn := nnn.isLt
  have hb := b.isLt
  rw [BitVec.toNat_add, addrOperand_toNat, wideOperand, BitVec.toNat_setWidth]
  omega

/-- The record of a key skip with `Vx` above 15 (R269). -/
theorem invalidKeyIndex_legal (pc : Word) {b : Byte} (h : 16 ≤ b.toNat) (x : RegIx) (nn : Byte)
    (hn : nn = 0x9E#8 ∨ nn = 0xA1#8) :
    FaultRecord.legal ⟨.invalidKeyIndex, pc - 2#16, formatXI 0xE x nn, BitVec.ofNat 17 b.toNat⟩ pc := by
  have hb := b.isLt
  refine ⟨by simpa using hn, by simp, ?_, ?_, by simp⟩ <;>
  · rw [BitVec.toNat_ofNat]; omega

theorem exec_has_effect (i : Instr) (s : State) : ∃ t, exec i s = .next t ∧ Effect s i t := by
  cases i with
  | cls => exact ⟨_, rfl, .clear⟩
  | ret =>
    by_cases h : s.sp.val = 0
    · exact ⟨_, exec_ret_of_empty h, .raise 0 rfl ⟨rfl, rfl, by simp⟩⟩
    · exact ⟨_, exec_ret_of_pos (Nat.pos_of_ne_zero h), .ret (Nat.pos_of_ne_zero h)⟩
  | call nnn =>
    by_cases h : s.sp.val < 16
    · exact ⟨_, exec_call_of_lt nnn h, .call nnn h⟩
    · exact ⟨_, exec_call_of_full nnn (by omega), .raise 0 rfl ⟨opOf_formatA _ _, rfl, by simp⟩⟩
  | jp nnn => exact ⟨_, rfl, .jump rfl (by rw [addrOperand_toNat]; omega)⟩
  | jpV0 nnn => exact ⟨_, rfl, .jump rfl (addrOperand_add_wideOperand_le nnn _)⟩
  | seImm _ _ | sneImm _ _ | seReg _ _ | sneReg _ _ => exact ⟨_, rfl, .skip _ rfl⟩
  | skp x =>
    by_cases h : (s.getV x).toNat ≤ 15
    · exact ⟨_, exec_skp_of_le h, .skip _ rfl⟩
    · have hge : 16 ≤ (s.getV x).toNat := by omega
      exact ⟨_, exec_skp_of_ge hge, .raise _ rfl (invalidKeyIndex_legal s.pc hge x _ (.inl rfl))⟩
  | sknp x =>
    by_cases h : (s.getV x).toNat ≤ 15
    · exact ⟨_, exec_sknp_of_le h, .skip _ rfl⟩
    · have hge : 16 ≤ (s.getV x).toNat := by omega
      exact ⟨_, exec_sknp_of_ge hge, .raise _ rfl (invalidKeyIndex_legal s.pc hge x _ (.inr rfl))⟩
  | ldImm x _ | addImm x _ | ldReg x _ | orReg x _ | andReg x _ | xorReg x _ | ldVxDT x =>
    exact ⟨_, rfl, .reg _ (by simp [Instr.writesReg])⟩
  | addReg x _ | subReg x _ | shrReg x _ | subnReg x _ | shlReg x _ =>
    exact ⟨_, rfl, .regAndFlag _ _ (by simp [Instr.writesReg]) (by simp [Instr.writesReg])⟩
  | ldI _ | addI _ | ldF _ => exact ⟨_, rfl, .index _ rfl⟩
  | rnd x nn => exact ⟨_, rfl, .random x nn _⟩
  | drw x y n => exact ⟨_, rfl, .draw x y n _ _⟩
  | ldVxK x => exact ⟨_, rfl, .wait x⟩
  | ldDTVx x => exact ⟨_, rfl, .delay x _⟩
  | ldSTVx x => exact ⟨_, rfl, .sound x _⟩
  | ldB x => exact ⟨_, rfl, .store _ rfl (by simp [accessesMemory, encode])⟩
  | storeRegs x =>
    exact ⟨_, rfl, .store _ (by simp [State.regList, Instr.storeLength]) (by simp [accessesMemory, encode])⟩
  | loadRegs x => exact ⟨_, rfl, .load x⟩

theorem effect_of_exec {i : Instr} {s t : State} (h : exec i s = .next t) : Effect s i t := by
  obtain ⟨u, hu, heff⟩ := exec_has_effect i s
  rw [h] at hu
  cases hu
  exact heff

end Sys2Proof.Machine
end

section
/-! The frames over all instructions (O45 to O48), read off `Effect`. -/

namespace Sys2Proof.Machine

theorem Effect.getV_eq {s t : State} {i : Instr} {r : RegIx} (h : Effect s i t) (hr : i.writesReg r = false) :
    t.getV r = s.getV r := by
  have hne : ∀ x, i.writesReg x = true → r ≠ x := by
    rintro x hx rfl
    exact Bool.noConfusion (hx.symm.trans hr)
  cases h with
  | reg b hx => exact State.getV_setV_ne _ b (hne _ hx)
  | regAndFlag f c hx hf => rw [State.getV_setWithFlag, if_neg (hne _ hf), if_neg (hne _ hx)]
  | skip c => exact State.getV_skipIf s c r
  | draw x y n vx vy =>
    have hvf : r ≠ vf := hne vf (by simp [Instr.writesReg])
    rw [State.getV_drawRows_of_ne_vf _ _ _ _ _ _ hvf, State.getV_setV_ne _ _ hvf]
  | store bs => rw [State.storeSeq_fields]; rfl
  | load x =>
    have hlt : ¬ r.toNat ≤ x.toNat := by simpa [Instr.writesReg] using hr
    rw [State.getV_loadSeq _ _ _ _ _ (by simp only [regCount]; omega), if_neg (by simp only [regCount]; omega)]
  | wait x => exact State.getV_waitKey_of_ne s (hne x (by simp [Instr.writesReg]))
  | random x nn b => exact State.getV_setV_ne _ b (hne x (by simp [Instr.writesReg]))
  | index | jump | call | ret | clear | delay | sound | raise => rfl

theorem Effect.index_eq {s t : State} {i : Instr} (h : Effect s i t) (hi : i.writesIndex = false) :
    t.index = s.index := by
  cases h with
  | index w hw => exact Bool.noConfusion (hw.symm.trans hi)
  | skip c => exact State.skipIf_index s c
  | draw => rw [State.drawRows_fields]; rfl
  | store bs => rw [State.storeSeq_fields]
  | load => exact State.loadSeq_index ..
  | wait x => rw [State.waitKey_fields]
  | reg | regAndFlag | jump | call | ret | clear | delay | sound | random | raise => rfl

theorem Effect.pc_eq {s t : State} {i : Instr} (h : Effect s i t) (hi : i.writesPc = false) : t.pc = s.pc := by
  cases h with
  | jump hw | skip c hw => exact Bool.noConfusion (hw.symm.trans hi)
  | call | ret => exact Bool.noConfusion hi
  | draw => rw [State.drawRows_fields]; rfl
  | store bs => rw [State.storeSeq_fields]
  | load => exact State.loadSeq_pc ..
  | wait x => rw [State.waitKey_fields]
  | reg | regAndFlag | index | clear | delay | sound | random | raise => rfl

theorem Effect.stack_eq {s t : State} {i : Instr} (h : Effect s i t) (hi : i.usesStack = false) :
    t.stack = s.stack ∧ t.sp = s.sp := by
  cases h with
  | call | ret => exact Bool.noConfusion hi
  | skip c => exact ⟨State.skipIf_stack s c, State.skipIf_sp s c⟩
  | draw => rw [State.drawRows_fields]; exact ⟨rfl, rfl⟩
  | store bs => rw [State.storeSeq_fields]; exact ⟨rfl, rfl⟩
  | load => exact ⟨State.loadSeq_stack .., State.loadSeq_sp ..⟩
  | wait x => rw [State.waitKey_fields]; exact ⟨rfl, rfl⟩
  | reg | regAndFlag | index | jump | clear | delay | sound | random | raise => exact ⟨rfl, rfl⟩

theorem Effect.fb_eq {s t : State} {i : Instr} (h : Effect s i t) (hi : i.writesFb = false) : t.fb = s.fb := by
  cases h with
  | clear | draw => exact Bool.noConfusion hi
  | skip c => exact State.skipIf_fb s c
  | store bs => rw [State.storeSeq_fields]
  | load => exact State.loadSeq_fb ..
  | wait x => rw [State.waitKey_fields]
  | reg | regAndFlag | index | jump | call | ret | delay | sound | random | raise => rfl

theorem Effect.dt_eq {s t : State} {i : Instr} (h : Effect s i t) (hi : ∀ x, i ≠ .ldDTVx x) : t.dt = s.dt := by
  cases h with
  | delay x => exact absurd rfl (hi x)
  | skip c => exact State.skipIf_dt s c
  | draw => rw [State.drawRows_fields]; rfl
  | store bs => rw [State.storeSeq_fields]
  | load => exact State.loadSeq_dt ..
  | wait x => rw [State.waitKey_fields]
  | reg | regAndFlag | index | jump | call | ret | clear | sound | random | raise => rfl

theorem Effect.st_eq {s t : State} {i : Instr} (h : Effect s i t) (hi : ∀ x, i ≠ .ldSTVx x) : t.st = s.st := by
  cases h with
  | sound x => exact absurd rfl (hi x)
  | skip c => exact State.skipIf_st s c
  | draw => rw [State.drawRows_fields]; rfl
  | store bs => rw [State.storeSeq_fields]
  | load => exact State.loadSeq_st ..
  | wait x => rw [State.waitKey_fields]
  | reg | regAndFlag | index | jump | call | ret | clear | delay | random | raise => rfl

theorem Effect.random_source_eq {s t : State} {i : Instr} (h : Effect s i t) (hi : ∀ x nn, i ≠ .rnd x nn) :
    t.rng = s.rng ∧ t.draws = s.draws := by
  cases h with
  | random x nn => exact absurd rfl (hi x nn)
  | skip c => exact ⟨State.skipIf_rng s c, State.skipIf_draws s c⟩
  | draw => rw [State.drawRows_fields]; exact ⟨rfl, rfl⟩
  | store bs => rw [State.storeSeq_fields]; exact ⟨rfl, rfl⟩
  | load => exact ⟨State.loadSeq_rng .., State.loadSeq_draws ..⟩
  | wait x => rw [State.waitKey_fields]; exact ⟨rfl, rfl⟩
  | reg | regAndFlag | index | jump | call | ret | clear | delay | sound | raise => exact ⟨rfl, rfl⟩

theorem Effect.keyWait_eq {s t : State} {i : Instr} (h : Effect s i t) (hi : ∀ x, i ≠ .ldVxK x) :
    t.keyWait = s.keyWait := by
  cases h with
  | wait x => exact absurd rfl (hi x)
  | skip c => exact State.skipIf_keyWait s c
  | draw => rw [State.drawRows_fields]; rfl
  | store bs => rw [State.storeSeq_fields]
  | load => exact State.loadSeq_keyWait ..
  | reg | regAndFlag | index | jump | call | ret | clear | delay | sound | random | raise => rfl

/-- What no instruction writes. -/
theorem Effect.unwritten_eq {s t : State} {i : Instr} (h : Effect s i t) :
    t.dtLast = s.dtLast ∧ t.stLast = s.stLast ∧ t.soundTriggers = s.soundTriggers ∧
      t.ports = s.ports ∧ t.cfg = s.cfg ∧ t.loadOpen = s.loadOpen := by
  cases h with
  | skip c => cases c <;> exact ⟨rfl, rfl, rfl, rfl, rfl, rfl⟩
  | draw => rw [State.drawRows_fields]; exact ⟨rfl, rfl, rfl, rfl, rfl, rfl⟩
  | store bs => rw [State.storeSeq_fields]; exact ⟨rfl, rfl, rfl, rfl, rfl, rfl⟩
  | load => rw [State.loadSeq_fields]; exact ⟨rfl, rfl, rfl, rfl, rfl, rfl⟩
  | wait x => rw [State.waitKey_fields]; exact ⟨rfl, rfl, rfl, rfl, rfl, rfl⟩
  | reg | regAndFlag | index | jump | call | ret | clear | delay | sound | random | raise =>
    exact ⟨rfl, rfl, rfl, rfl, rfl, rfl⟩

/-- Memory reads as before outside the bytes stored, from `I` up. -/
theorem Effect.read_eq {s t : State} {i : Instr} (h : Effect s i t) {a : Nat}
    (ha : a < s.effAddr 0 ∨ s.effAddr 0 + i.storeLength ≤ a) : t.mem.read a = s.mem.read a := by
  cases h with
  | store bs hlen =>
    have htake := List.length_take_le' (4096 - s.effAddr 0) bs
    rw [State.storeSeq_fields]
    exact Memory.read_writeBytes_outside _ _ _ _ (by omega)
  | skip c => rw [State.skipIf_mem]
  | draw => rw [State.drawRows_fields]; rfl
  | load => rw [State.loadSeq_mem]
  | wait x => rw [State.waitKey_fields]
  | reg | regAndFlag | index | jump | call | ret | clear | delay | sound | random | raise => rfl

end Sys2Proof.Machine

open Sys2Proof Sys2Proof.Machine

/-- Settles O45: the register frame of each effect. -/
theorem registersChangeOnlyAsDestinationOrFlag : Obligations.RegistersChangeOnlyAsDestinationOrFlag :=
  fun _ _ _ _ h hr => (effect_of_exec h).getV_eq hr

/-- Settles O46: the frames of `I`, `PC` and the stack of each effect. -/
theorem indexPcAndStackChangeOnlyByTheirWriters : Obligations.IndexPcAndStackChangeOnlyByTheirWriters :=
  fun _ _ _ h =>
    have heff := effect_of_exec h
    ⟨heff.index_eq, heff.pc_eq, heff.stack_eq⟩

/-- Settles O47: a store writes at most as many bytes as its list holds, any other effect none. -/
theorem memoryChangesOnlyInTheStoredBytes : Obligations.MemoryChangesOnlyInTheStoredBytes :=
  fun _ _ _ _ h ha => (effect_of_exec h).read_eq ha

/-- Settles O48: the frames of the remaining state of each effect. -/
theorem otherStateChangesOnlyByItsWriters : Obligations.OtherStateChangesOnlyByItsWriters := by
  intro i s t h
  have heff := effect_of_exec h
  obtain ⟨hdtLast, hstLast, htriggers, hports, hcfg, hopen⟩ := heff.unwritten_eq
  exact ⟨fun hi px py => by rw [State.pixel, State.pixel, heff.fb_eq hi], heff.dt_eq, heff.st_eq, hdtLast, hstLast,
    htriggers, heff.random_source_eq, heff.keyWait_eq, hports, hcfg, hopen⟩
end

section
/-! What a step can do (`StepEffect`): the branches of the cycle, with the instruction's effect where one runs. -/

namespace Sys2Proof

/-! ## A word of the opcode map decodes (R94, R95) -/

theorem opOf_eq_of_F000 {w v : Word} (h : w &&& 0xF000#16 = v) : opOf w = BitVec.ofNat 4 (v.toNat / 4096) :=
  BitVec.eq_of_toNat_eq (by rw [BitVec.toNat_ofNat, opOf_toNat, ← h, and_F000]; omega)

theorem fields_of_F00F {w v : Word} (h : w &&& 0xF00F#16 = v) :
    opOf w = BitVec.ofNat 4 (v.toNat / 4096) ∧ nOf w = BitVec.ofNat 4 v.toNat := by
  constructor <;> apply BitVec.eq_of_toNat_eq <;>
    simp only [BitVec.toNat_ofNat, opOf_toNat, nOf_toNat, ← h, and_F00F] <;> omega

theorem fields_of_F0FF {w v : Word} (h : w &&& 0xF0FF#16 = v) :
    opOf w = BitVec.ofNat 4 (v.toNat / 4096) ∧ nnOf w = BitVec.ofNat 8 v.toNat := by
  constructor <;> apply BitVec.eq_of_toNat_eq <;>
    simp only [BitVec.toNat_ofNat, opOf_toNat, nnOf_toNat, ← h, and_F0FF] <;> omega

/-- A word that matches the row of an instruction decodes: the row's mask keeps the fields the decoder selects by. -/
theorem decodeWord_isOk_of_row {w : Word} (i : Instr) (h : i.row.applies w = true) : (decodeWord w).isOk = true := by
  rw [OpcodeRow.applies, beq_iff_eq] at h
  cases i with
  | cls | ret =>
    have hw := (BitVec.and_allOnes (x := w)).symm.trans h
    rw [hw]; rfl
  | jp | call | seImm | sneImm | ldImm | addImm | ldI | jpV0 | rnd | drw =>
    simp [decodeWord, opOf_eq_of_F000 h, Instr.row, Except.isOk, Except.toBool]
  | seReg | sneReg =>
    obtain ⟨hop, hn⟩ := fields_of_F00F h
    simp [decodeWord, hop, hn, Instr.row, Except.isOk, Except.toBool]
  | ldReg | orReg | andReg | xorReg | addReg | subReg | shrReg | subnReg | shlReg =>
    obtain ⟨hop, hn⟩ := fields_of_F00F h
    simp [decodeWord, decode8, hop, hn, Instr.row, Except.isOk, Except.toBool]
  | skp | sknp =>
    obtain ⟨hop, hnn⟩ := fields_of_F0FF h
    simp [decodeWord, decodeE, hop, hnn, Instr.row, Except.isOk, Except.toBool]
  | ldVxDT | ldVxK | ldDTVx | ldSTVx | addI | ldF | ldB | storeRegs | loadRegs =>
    obtain ⟨hop, hnn⟩ := fields_of_F0FF h
    simp [decodeWord, decodeF, hop, hnn, Instr.row, Except.isOk, Except.toBool]

theorem wordLegal_eq_false_of_reject {w : Word} {r : Reject} (h : decodeWord w = .error r) : wordLegal w = false := by
  rw [Bool.eq_false_iff]
  intro hlegal
  simp only [wordLegal, opcodeTable, List.any_map, List.any_eq_true, Function.comp_apply] at hlegal
  obtain ⟨i, -, hi⟩ := hlegal
  have hok := decodeWord_isOk_of_row i hi
  rw [h] at hok
  cases hok

end Sys2Proof

namespace Sys2Proof.Machine

/-! ## The branches of a step -/

theorem State.beginStep_pc (s : State) : s.beginStep.pc = s.pc := by rw [State.beginStep_fields]

theorem State.nextInstr_of_running {s : State} (h : s.running) {w : Word} (hw : s.fetch = .ok w) :
    s.nextInstr = (decodeWord w).toOption := by
  unfold State.nextInstr
  rw [h.1, h.2, hw]

/-- A step of a state whose next instruction is `i` runs `i` after the timer check and the advance. -/
theorem step_of_nextInstr {s : State} {i : Instr} (h : s.nextInstr = some i) :
    s.running ∧ s.pc.toNat + 1 < 4096 ∧ step s = exec i s.beginStep.advance := by
  unfold State.nextInstr at h
  split at h
  next w hf hk hw =>
    have hpc : s.pc.toNat + 1 < 4096 := by
      by_contra hge
      rw [State.fetch_error s (by omega)] at hw
      cases hw
    rw [State.fetch_ok s hpc, Except.ok.injEq] at hw
    refine ⟨⟨hf, hk⟩, hpc, ?_⟩
    rw [step_fetched ⟨hf, hk⟩ hpc, hw]
    cases hd : decodeWord w with
    | error r => rw [hd] at h; cases h
    | ok j =>
      rw [hd] at h
      cases h
      exact runWord_ok hd
  next => cases h

/-- What a step does: nothing when halted, the key wait when waiting, and from a running engine a fetch fault, an
invalid word's fault, or the effect of the instruction fetched. -/
inductive StepEffect (s : State) : State → Prop where
  | halted {r : FaultRecord} (h : s.fault = some r) : StepEffect s s
  | waiting {x : RegIx} (h : s.fault = none) (hw : s.keyWait = some x) : StepEffect s (s.waitKey x)
  | fetchFault (h : s.running) (hp : 4096 ≤ s.pc.toNat + 1) :
      StepEffect s (s.beginStep.raise .memoryOutOfRange s.pc 0#16 (max s.pc.toNat 4096))
  | invalid {w : Word} (h : s.running) (hp : s.pc.toNat + 1 < 4096) (hw : wordLegal w = false) :
      StepEffect s (s.beginStep.advance.raise .invalidInstruction s.pc w 0)
  | ran {i : Instr} {t : State} (h : s.running) (hp : s.pc.toNat + 1 < 4096) (hi : s.nextInstr = some i)
      (heff : Effect s.beginStep.advance i t) : StepEffect s t

theorem step_has_effect (s : State) : ∃ t, step s = .next t ∧ StepEffect s t := by
  cases hf : s.fault with
  | some r => exact ⟨_, step_halted hf, .halted hf⟩
  | none =>
    cases hk : s.keyWait with
    | some x => exact ⟨_, step_waiting hf hk, .waiting hf hk⟩
    | none =>
      have hrun : s.running := ⟨hf, hk⟩
      by_cases hp : s.pc.toNat + 1 < 4096
      · have hfetch := State.fetch_ok s hp
        have hstep := step_fetched hrun hp
        cases hd : decodeWord (wordOfBytes (s.mem.read s.pc.toNat) (s.mem.read (s.pc.toNat + 1))) with
        | error r =>
          rw [runWord_error hd, State.beginStep_pc] at hstep
          exact ⟨_, hstep, .invalid hrun hp (wordLegal_eq_false_of_reject hd)⟩
        | ok i =>
          have hi : s.nextInstr = some i := by rw [State.nextInstr_of_running hrun hfetch, hd]; rfl
          obtain ⟨t, ht, heff⟩ := exec_has_effect i s.beginStep.advance
          exact ⟨t, by rw [hstep, runWord_ok hd, ht], .ran hrun hp hi heff⟩
      · exact ⟨_, step_fetchFault hrun (by omega), .fetchFault hrun (by omega)⟩

theorem stepEffect_of_step {s t : State} (h : step s = .next t) : StepEffect s t := by
  obtain ⟨u, hu, heff⟩ := step_has_effect s
  rw [h] at hu
  cases hu
  exact heff

end Sys2Proof.Machine
end

section
/-! The legal states (O57 to O60): what keeps `State.Inv`, from the effects of an instruction up to every request. -/

namespace Sys2Proof.Machine

/-! ## The parts of the invariant -/

/-- The invariant speaks of seven fields. -/
theorem State.Inv.of_same {s t : State} (h : s.Inv) (hmem : t.mem = s.mem) (hpc : t.pc = s.pc)
    (hstack : t.stack = s.stack) (hsp : t.sp = s.sp) (hfault : t.fault = s.fault) (hkey : t.keyWait = s.keyWait)
    (hopen : t.loadOpen = s.loadOpen) : t.Inv where
  memory := hmem ▸ h.memory
  pcReach := hpc ▸ h.pcReach
  stackReach := by rw [hstack, hsp]; exact h.stackReach
  faultLegal := by rw [hfault, hpc, hkey]; exact h.faultLegal
  loadWindow := by rw [hopen, hfault, hkey]; exact h.loadWindow

theorem State.Inv.setMem {s : State} (h : s.Inv) {m : Memory} (hm : m.wf) : (s.setMem m).Inv where
  memory := hm
  pcReach := h.pcReach
  stackReach := h.stackReach
  faultLegal := h.faultLegal
  loadWindow := h.loadWindow

/-- Moving `PC` keeps the invariant while no record refers to it. -/
theorem State.Inv.setPc {s : State} (h : s.Inv) (hf : s.fault = none) {w : Word} (hw : w.toNat ≤ 0x10FE) :
    (s.setPc w).Inv where
  memory := h.memory
  pcReach := hw
  stackReach := h.stackReach
  faultLegal := fun _ hr => by cases hf.symm.trans hr
  loadWindow := h.loadWindow

theorem State.Inv.setStack {s : State} (h : s.Inv) {stack : Vector Word 16} {sp : Fin 17}
    (hreach : ∀ k : Fin 16, k.val < sp.val → (stack[k]).toNat ≤ 0x1000) : (s.setStack stack sp).Inv where
  memory := h.memory
  pcReach := h.pcReach
  stackReach := hreach
  faultLegal := h.faultLegal
  loadWindow := h.loadWindow

/-- A raise with a legal record, after the window is closed. -/
theorem State.Inv.setFault {s : State} (h : s.Inv) (hk : s.keyWait = none) (ho : s.loadOpen = false) {r : FaultRecord}
    (hr : r.legal s.pc) : (s.setFault (some r)).Inv where
  memory := h.memory
  pcReach := h.pcReach
  stackReach := h.stackReach
  faultLegal := fun _ he => by cases he; exact ⟨hr, hk⟩
  loadWindow := fun he => by cases ho.symm.trans he

theorem State.Inv.closeLoad {s : State} (h : s.Inv) : s.closeLoad.Inv where
  memory := h.memory
  pcReach := h.pcReach
  stackReach := h.stackReach
  faultLegal := h.faultLegal
  loadWindow := fun he => by cases he

theorem State.Inv.waitKey {s : State} (h : s.Inv) (hf : s.fault = none) (ho : s.loadOpen = false) (x : RegIx) :
    (s.waitKey x).Inv := by
  rw [State.waitKey_fields]
  exact
    { memory := h.memory
      pcReach := h.pcReach
      stackReach := h.stackReach
      faultLegal := fun _ hr => by cases hf.symm.trans hr
      loadWindow := fun he => by cases ho.symm.trans he }

/-! ## The records of R261 -/

theorem wordOutOfRange_toNat (w : Word) (a : Nat) (ha : a ≤ w.toNat) :
    4096 ≤ (BitVec.ofNat 17 (max a 4096)).toNat ∧ (BitVec.ofNat 17 (max a 4096)).toNat ≤ 0x1000E := by
  have := w.isLt
  rw [BitVec.toNat_ofNat]
  omega

theorem State.accessRecord_legal (s : State) {w : Word} (hw : accessesMemory w) :
    (s.accessRecord w (s.effAddr 0)).legal s.pc := by
  obtain ⟨hlow, hhigh⟩ := wordOutOfRange_toNat s.index (s.effAddr 0) (Nat.le_refl _)
  exact ⟨hlow, hhigh, .inr ⟨hw, by simp [State.accessRecord]⟩⟩

/-- A data access that leaves everything but registers, pixels, memory and the record keeps the invariant. -/
theorem State.Inv.dataAccess {s t : State} (h : s.Inv) (hk : s.keyWait = none) (ho : s.loadOpen = false)
    {w : Word} (hw : accessesMemory w) (hmem : t.mem.wf) (hpc : t.pc = s.pc) (hstack : t.stack = s.stack)
    (hsp : t.sp = s.sp) (hkey : t.keyWait = s.keyWait) (hopen : t.loadOpen = s.loadOpen)
    (hfault : t.fault = s.fault ∨ t.fault = some (s.accessRecord w (s.effAddr 0))) : t.Inv := by
  rcases hfault with hfault | hfault
  · exact (h.setMem hmem).of_same rfl hpc hstack hsp hfault hkey hopen
  · exact ((h.setMem hmem).setFault hk ho (s.accessRecord_legal hw)).of_same rfl hpc hstack hsp hfault hkey hopen

/-! ## The execute phase -/

theorem stack_set_reach {stack : Vector Word 16} {n : Nat} {w : Word} (hn : n < 16)
    (h : ∀ k : Fin 16, k.val < n → (stack[k]).toNat ≤ 0x1000) (hw : w.toNat ≤ 0x1000) (k : Fin 16)
    (hk : k.val < n + 1) :
    ((stack.set n w hn)[k]).toNat ≤ 0x1000 := by
  by_cases he : n = k.val
  · subst he
    simpa using hw
  · have := h k (by omega)
    simpa [Vector.getElem_set, he] using this

/-- Every effect keeps the invariant, from a running state whose `PC` is an instruction's address plus 2 and whose load
window is closed. -/
theorem Effect.inv {s t : State} {i : Instr} (heff : Effect s i t) (h : s.Inv) (hrun : s.running)
    (hpc : s.pc.toNat ≤ 0x1000) (ho : s.loadOpen = false) : t.Inv := by
  obtain ⟨hf, hk⟩ := hrun
  cases heff with
  | reg | regAndFlag | index | clear | delay | sound | random => exact h.of_same rfl rfl rfl rfl rfl rfl rfl
  | jump _ hw => exact h.setPc hf hw
  | skip c =>
    cases c with
    | false => exact h
    | true => exact h.setPc hf (by rw [BitVec.toNat_add]; simp; omega)
  | call nnn hlt =>
    have hstack := h.setStack (sp := ⟨s.sp.val + 1, by omega⟩) (stack_set_reach hlt h.stackReach hpc)
    exact hstack.setPc hf (by rw [addrOperand_toNat]; omega)
  | ret hpos =>
    have htop := h.stackReach ⟨s.sp.val - 1, by omega⟩ (by simp only; omega)
    have hstack := h.setStack (sp := ⟨s.sp.val - 1, by omega⟩) fun k hk =>
      h.stackReach k (Nat.lt_of_lt_of_le hk (Nat.sub_le _ _))
    exact hstack.setPc hf (Nat.le_trans htop (by decide))
  | draw x y n vx vy =>
    refine h.dataAccess hk ho (w := encode (.drw x y n)) (.inl (opOf_formatXYN _ _ _ _)) ?_ ?_ ?_ ?_ ?_ ?_
      (State.drawRows_fault_cases _ _ _ _ _ _)
    all_goals rw [State.drawRows_fields]
    exacts [h.memory, rfl, rfl, rfl, rfl, rfl]
  | store bs _ hw =>
    refine h.dataAccess hk ho hw (State.storeSeq_mem_wf h.memory _ _ bs) ?_ ?_ ?_ ?_ ?_ (State.storeSeq_fault _ _ _ _)
    all_goals rw [State.storeSeq_fields]
  | load x =>
    have hw : accessesMemory (encode (.loadRegs x)) := .inr ⟨opOf_formatXI _ _ _, .inr (.inr (nnOf_formatXI _ _ _))⟩
    exact h.dataAccess hk ho hw (by rw [State.loadSeq_mem]; exact h.memory) (State.loadSeq_pc ..)
      (State.loadSeq_stack ..) (State.loadSeq_sp ..) (State.loadSeq_keyWait ..) (State.loadSeq_loadOpen ..)
      (State.loadSeq_fault_cases _ _ _ _ _)
  | wait x => exact h.waitKey hf ho x
  | raise ea _ hlegal => exact h.setFault hk ho hlegal

/-! ## The step -/

theorem State.Inv.beginStep {s : State} (h : s.Inv) : s.beginStep.Inv := by
  rw [State.beginStep_fields]
  exact h.closeLoad.of_same rfl rfl rfl rfl rfl rfl rfl

theorem State.running.beginStep {s : State} (h : s.running) : s.beginStep.running := by
  rw [State.beginStep_fields]
  exact h

theorem State.beginStep_loadOpen (s : State) : s.beginStep.loadOpen = false := by rw [State.beginStep_fields]

/-- A legal halted or waiting state has stepped. -/
theorem State.Inv.loadOpen_of_not_running {s : State} (h : s.Inv) (hn : ¬ s.running) : s.loadOpen = false :=
  Bool.eq_false_iff.2 fun ho => hn (h.loadWindow ho)

theorem StepEffect.loadOpen_eq {s t : State} (heff : StepEffect s t) (h : s.Inv) : t.loadOpen = false := by
  cases heff with
  | halted hf => exact h.loadOpen_of_not_running fun hr => by cases hf.symm.trans hr.1
  | waiting hf hw =>
    rw [State.waitKey_fields]
    exact h.loadOpen_of_not_running fun hr => by cases hw.symm.trans hr.2
  | fetchFault | invalid => exact s.beginStep_loadOpen
  | ran hr hp hi heff =>
    obtain ⟨-, -, -, -, -, hopen⟩ := heff.unwritten_eq
    exact hopen.trans s.beginStep_loadOpen

theorem StepEffect.inv {s t : State} (heff : StepEffect s t) (h : s.Inv) : t.Inv := by
  have hb := h.beginStep
  have hopen := s.beginStep_loadOpen
  have hpc := s.beginStep_pc
  cases heff with
  | halted => exact h
  | waiting hf hw => exact h.waitKey hf (h.loadOpen_of_not_running fun hr => by cases hw.symm.trans hr.2) _
  | fetchFault hr hp =>
    obtain ⟨hlow, hhigh⟩ := wordOutOfRange_toNat s.pc s.pc.toNat (Nat.le_refl _)
    exact hb.setFault hr.beginStep.2 hopen ⟨hlow, hhigh, .inl ⟨rfl, hpc⟩⟩
  | invalid hr hp hw =>
    have hadv : s.beginStep.advance.Inv := hb.setPc hr.beginStep.1 (by rw [hpc, BitVec.toNat_add]; simp; omega)
    exact hadv.setFault hr.beginStep.2 hopen ⟨hw, rfl, by rw [State.advance_pc, hpc]⟩
  | ran hr hp hi heff =>
    have hle : (s.beginStep.pc + 2#16).toNat ≤ 0x1000 := by rw [hpc, BitVec.toNat_add]; simp; omega
    have hadv : s.beginStep.advance.Inv := hb.setPc hr.beginStep.1 (Nat.le_trans hle (by decide))
    exact heff.inv hadv hr.beginStep hle hopen

/-! ## The other requests -/

theorem State.resetAt_inv (s : State) (time : Time) : (s.resetAt time).Inv where
  memory := Memory.writeBytes_wf Memory.wf_nil 0 _ (by rw [Vector.length_toList]; decide)
  pcReach := show (0x200#16).toNat ≤ 0x10FE by decide
  stackReach := fun _ hk => absurd hk (Nat.not_lt_zero _)
  faultLegal := fun _ hr => by cases hr
  loadWindow := fun _ => ⟨rfl, rfl⟩

theorem State.Inv.load {s : State} (h : s.Inv) (image : List Byte) : (s.load image).Inv := by
  unfold State.load loadResult
  by_cases hlen : image.length ≤ maxImage
  · rw [if_pos hlen]
    have hfit : progBase + image.length ≤ memSize := by simp only [memSize, progBase, maxImage] at *; omega
    exact (h.setMem (Memory.writeBytes_wf h.memory progBase image hfit)).closeLoad
  · rw [if_neg hlen]
    exact h.closeLoad

theorem perform_load_next {s t : State} {image : List Byte} (h : perform (.load image) s = .next t) :
    t = s.load image := by
  simp only [perform] at h
  by_cases ho : s.loadOpen = true
  · rw [if_pos ho] at h; cases h; rfl
  · rw [if_neg ho] at h; cases h

theorem State.reset_resetAt : State.reset.resetAt 0 = State.reset := by decide

end Sys2Proof.Machine

open Sys2Proof Sys2Proof.Machine

/-- Settles O58: each branch of the step keeps the invariant, and a running step closes the window that a halted or
waiting state has closed already. -/
theorem everyStepKeepsTheStateLegal : Obligations.EveryStepKeepsTheStateLegal :=
  fun _ _ hinv h =>
    have heff := stepEffect_of_step h
    ⟨heff.inv hinv, heff.loadOpen_eq hinv⟩

/-- Settles O59: by the kind of request. -/
theorem everyRequestKeepsTheStateLegal : Obligations.EveryRequestKeepsTheStateLegal := by
  intro s t a hinv h
  cases a with
  | reset time => cases h; exact s.resetAt_inv time
  | load image => rw [perform_load_next h]; exact hinv.load image
  | step inputs =>
    have hports : (s.setPorts inputs).Inv := hinv.of_same rfl rfl rfl rfl rfl rfl rfl
    exact (everyStepKeepsTheStateLegal _ _ hports h).1

/-- Settles O60: induction over the requests, with `everyRequestKeepsTheStateLegal` as the step. -/
theorem everyReachableStateIsLegal : Obligations.EveryReachableStateIsLegal := by
  intro s hs
  induction hs with
  | afterReset s time => exact s.resetAt_inv time
  | afterRequest s t a _ h ih => exact everyRequestKeepsTheStateLegal s t a ih h

/-- Settles O57: the state after reset is one a `reset` leaves. -/
theorem resetStateIsLegal : Obligations.ResetStateIsLegal :=
  ⟨State.reset_resetAt ▸ State.resetAt_inv State.reset 0, State.reset_resetAt, by decide⟩
end

section
/-! Key wait, timers, return, reset (O11, O18, O19, O28, O43, O54). -/

namespace Sys2Proof.Machine

/-! ## Timers -/

theorem State.timerCheck_dt_le (s : State) : s.timerCheck.dt.toNat ≤ s.dt.toNat := by
  rw [State.timerCheck_dt]
  split
  · rw [lowered_toNat]; exact Nat.sub_le _ _
  · exact Nat.le_refl _

theorem State.beginStep_dt (s : State) : s.beginStep.dt = s.timerCheck.dt := by rw [State.beginStep_fields]
theorem State.beginStep_st (s : State) : s.beginStep.st = s.timerCheck.st := by rw [State.beginStep_fields]
theorem State.beginStep_timestamps (s : State) :
    s.beginStep.dtLast = s.timerCheck.dtLast ∧ s.beginStep.stLast = s.timerCheck.stLast ∧
      s.beginStep.soundTriggers = s.timerCheck.soundTriggers := by
  rw [State.beginStep_fields]
  exact ⟨rfl, rfl, rfl⟩

/-- The timers after a running step are those of the timer check, but for the one the instruction writes. -/
theorem StepEffect.timers_eq {s t : State} (heff : StepEffect s t) (hrun : s.running) :
    t.dtLast = s.timerCheck.dtLast ∧ t.stLast = s.timerCheck.stLast ∧
      t.soundTriggers = s.timerCheck.soundTriggers ∧
      ((∀ x, s.nextInstr ≠ some (.ldDTVx x)) → t.dt = s.timerCheck.dt) ∧
      ((∀ x, s.nextInstr ≠ some (.ldSTVx x)) → t.st = s.timerCheck.st) := by
  obtain ⟨hdtLast, hstLast, htriggers⟩ := s.beginStep_timestamps
  cases heff with
  | halted h => cases hrun.1.symm.trans h
  | waiting _ hw => cases hrun.2.symm.trans hw
  | fetchFault | invalid =>
    exact ⟨hdtLast, hstLast, htriggers, fun _ => s.beginStep_dt, fun _ => s.beginStep_st⟩
  | ran _ _ hi heff =>
    obtain ⟨h1, h2, h3, -⟩ := heff.unwritten_eq
    refine ⟨h1.trans hdtLast, h2.trans hstLast, h3.trans htriggers, fun hn => ?_, fun hn => ?_⟩
    · exact (heff.dt_eq fun x hx => hn x (hx ▸ hi)).trans s.beginStep_dt
    · exact (heff.st_eq fun x hx => hn x (hx ▸ hi)).trans s.beginStep_st

theorem StepEffect.dt_le {s t : State} (heff : StepEffect s t) (hn : ∀ x, s.nextInstr ≠ some (.ldDTVx x)) :
    t.dt.toNat ≤ s.dt.toNat := by
  by_cases hrun : s.running
  · obtain ⟨-, -, -, hdt, -⟩ := heff.timers_eq hrun
    rw [hdt hn]
    exact s.timerCheck_dt_le
  · cases heff with
    | halted => exact Nat.le_refl _
    | waiting => rw [State.waitKey_fields]
    | fetchFault h | invalid h | ran h => exact absurd h hrun

theorem State.load_dt (s : State) (image : List Byte) : (s.load image).dt = s.dt := by
  unfold State.load
  split <;> rfl

/-! ## Reset -/

theorem State.read_resetAt (s : State) (time : Time) (a : Nat) :
    (s.resetAt time).mem.read a = (s.cfg.font.toList[a]?).getD 0#8 := by
  have hlen : 0 + s.cfg.font.toList.length ≤ memSize := by rw [Vector.length_toList]; decide
  have hread := Memory.read_writeBytes Memory.wf_nil 0 a s.cfg.font.toList hlen
  rwa [if_pos (Nat.zero_le a), Memory.read_nil] at hread

theorem State.getV_resetAt (s : State) (time : Time) (r : RegIx) : (s.resetAt time).getV r = 0 := by
  simp [State.getV, State.resetAt]

theorem State.pixel_resetAt (s : State) (time : Time) (px : Fin 64) (py : Fin 32) :
    (s.resetAt time).pixel px py = false := by
  simp [State.pixel, State.resetAt, Framebuffer.blank]

end Sys2Proof.Machine

open Sys2Proof Sys2Proof.Machine

/-- Settles O11: a waiting step is the key wait, which writes its own status again without an event. -/
theorem waitingStepEndsOnlyWithAKeyEvent : Obligations.WaitingStepEndsOnlyWithAKeyEvent := by
  intro s x hf hw
  refine ⟨fun hnone => ?_, fun k hk => ⟨_, step_waiting hf hw, State.waitKey_completes hk x⟩⟩
  rw [step_waiting hf hw, State.waitKey_of_no_event hnone, State.setKeyWait, ← hw]

/-- Settles O43: the encoding, and the two branches of the key wait. -/
theorem keyReadTakesTheEventOrWaits : Obligations.KeyReadTakesTheEventOrWaits := by
  intro x s
  refine ⟨?_, fun k hk => ⟨_, rfl, State.waitKey_completes hk x⟩, fun hnone => ?_⟩
  · rw [encode, formatXI_toNat]
    show 0xF * 4096 + x.toNat * 256 + 0x0A = 0xF00A + x.toNat * 256
    omega
  · show Host.Outcome.next (s.waitKey x) = _
    rw [State.waitKey_of_no_event hnone]
    rfl

/-- Settles O18: no branch after the timer check writes a timestamp or the count of triggers. -/
theorem timerCheckIsCommittedByEveryStep : Obligations.TimerCheckIsCommittedByEveryStep :=
  fun _ _ hrun h => (stepEffect_of_step h).timers_eq hrun

/-- Settles O19: by the kind of request; the timer check only lowers. -/
theorem delayTimerNeverRisesBetweenWrites : Obligations.DelayTimerNeverRisesBetweenWrites := by
  intro s t a h hn hreset
  cases a with
  | reset time => exact absurd rfl (hreset time)
  | load image => rw [perform_load_next h, State.load_dt]
  | step inputs => exact (stepEffect_of_step h).dt_le (s := s.setPorts inputs) fun x => hn inputs x rfl

/-- Settles O28: the call puts its return address at the top that the return reads. -/
theorem returnUndoesCall : Obligations.ReturnUndoesCall := by
  intro nnn s t u hlt h hstack hsp
  rw [exec_call_of_lt nnn hlt] at h
  cases h
  have hsp' : u.sp.val = s.sp.val + 1 := congrArg Fin.val hsp
  refine ⟨_, exec_ret_of_pos (by omega), ?_, ?_⟩
  · simp [hstack, hsp']
  · exact Fin.ext (by simp [hsp'])

/-- Settles O54: the fields by definition, memory and the arrays by their reads. -/
theorem resetSetsEveryResetValue : Obligations.ResetSetsEveryResetValue := by
  intro s time
  refine ⟨_, rfl, s.getV_resetAt time, rfl, rfl, rfl, rfl, rfl, rfl, rfl, fun k => ?_, fun a ha => ?_,
    s.pixel_resetAt time, rfl, rfl, rfl, rfl, rfl⟩
  · rw [State.read_resetAt]; simp
  · rw [State.read_resetAt, List.getElem?_eq_none (by rw [Vector.length_toList]; exact ha)]; rfl
end

section
/-! Non-dependence (O51, O53): what a step does with the parts of the state that few instructions read. -/

namespace Sys2Proof.Machine

/-! ## Disturbances -/

/-- A change of the parts of the state that only calls and returns, `Cxnn`, and the key skips read: the stack entries,
the random source, the count of draws, the held keys and the draw presented. -/
structure Disturbance where
  stack : Vector Word 16 → Vector Word 16 := id
  rng : Word → Word := id
  draws : Nat → Nat := id
  keyHeld : BitVec 16 → BitVec 16 := id
  draw : Option Byte → Option Byte := id

/-- The disturbed state. -/
def Disturbance.on (d : Disturbance) (s : State) : State :=
  { s with
    stack := d.stack s.stack
    rng := d.rng s.rng
    draws := d.draws s.draws
    ports := { s.ports with keyHeld := d.keyHeld s.ports.keyHeld, draw := d.draw s.ports.draw } }

/-- The instruction reads and writes nothing that the disturbance changes. -/
structure Disturbance.Unseen (d : Disturbance) (i : Instr) : Prop where
  stack : i.usesStack = true → d.stack = id
  keys : ∀ x, i = .skp x ∨ i = .sknp x → d.keyHeld = id
  random : ∀ x nn, i = .rnd x nn → d.rng = id ∧ d.draws = id ∧ d.draw = id

variable (d : Disturbance)

/-! ## The operations -/

theorem Disturbance.on_skipIf (s : State) (c : Bool) : (d.on s).skipIf c = d.on (s.skipIf c) := by
  cases c <;> rfl

theorem Disturbance.on_waitKey (s : State) (x : RegIx) : (d.on s).waitKey x = d.on (s.waitKey x) := by
  cases hk : s.ports.keyEvent with
  | none => rw [State.waitKey_of_no_event hk, State.waitKey_of_no_event (s := d.on s) hk]; rfl
  | some k => rw [State.waitKey_of_event hk, State.waitKey_of_event (s := d.on s) hk]; rfl

theorem Disturbance.on_storeSeq (s : State) (w : Word) (a : Nat) (bs : List Byte) :
    (d.on s).storeSeq w a bs = d.on (s.storeSeq w a bs) := by
  induction bs generalizing s a with
  | nil => rfl
  | cons b bs ih =>
    by_cases ha : a < 4096
    · rw [State.storeSeq, State.storeSeq, State.memWrite_lt s b ha, State.memWrite_lt (d.on s) b ha]
      exact ih (s.setMem (s.mem.write a b)) (a + 1)
    · rw [State.storeSeq, State.storeSeq, State.memWrite_ge s b (by omega), State.memWrite_ge (d.on s) b (by omega)]
      rfl

theorem Disturbance.on_loadSeq (s : State) (w : Word) (a j n : Nat) :
    (d.on s).loadSeq w a j n = d.on (s.loadSeq w a j n) := by
  induction n generalizing s a j with
  | zero => rfl
  | succ n ih =>
    by_cases ha : a < 4096
    · rw [State.loadSeq, State.loadSeq, State.memRead_lt s ha, State.memRead_lt (d.on s) ha]
      exact ih (s.setV (BitVec.ofNat 4 j) (s.mem.read a)) (a + 1) (j + 1)
    · rw [State.loadSeq, State.loadSeq, State.memRead_ge s (by omega), State.memRead_ge (d.on s) (by omega)]
      rfl

theorem Disturbance.on_drawPixel (s : State) (px : Fin 64) (py : Fin 32) (bit : Bool) :
    (d.on s).drawPixel px py bit = d.on (s.drawPixel px py bit) := by
  have hpix : (d.on s).pixel px py = s.pixel px py := rfl
  unfold State.drawPixel
  rw [hpix]
  split <;> rfl

theorem Disturbance.on_drawCols (s : State) (vx : Nat) (py : Fin 32) (b : Byte) (col n : Nat) :
    (d.on s).drawCols vx py b col n = d.on (s.drawCols vx py b col n) := by
  induction n generalizing s col with
  | zero => rfl
  | succ n ih => rw [State.drawCols, State.drawCols, d.on_drawPixel, ih]

theorem Disturbance.on_drawRows (s : State) (w : Word) (vx vy row n : Nat) :
    (d.on s).drawRows w vx vy row n = d.on (s.drawRows w vx vy row n) := by
  induction n generalizing s row with
  | zero => rfl
  | succ n ih =>
    by_cases ha : s.effAddr row < 4096
    · rw [State.drawRows_succ s w vx vy row n ha, State.drawRows_succ (d.on s) w vx vy row n ha, d.on_drawCols]
      exact ih _ _
    · have hd : (d.on s).memRead ((d.on s).effAddr row) = none := State.memRead_ge s (Nat.not_lt.1 ha)
      rw [State.drawRows, State.drawRows, State.memRead_ge s (by omega), hd]
      rfl

theorem Disturbance.on_beginStep (s : State) : (d.on s).beginStep = d.on s.beginStep := by
  have hdt : ∀ (u : State) (now : Time), (d.on u).decayDT now = d.on (u.decayDT now) := by
    intro u now
    rw [State.decayDT, State.decayDT, apply_ite d.on]; rfl
  have hst : ∀ (u : State) (now : Time), (d.on u).decayST now = d.on (u.decayST now) := by
    intro u now
    rw [State.decayST, State.decayST, apply_ite d.on]; rfl
  exact (congrArg (State.decayST · s.ports.time) (hdt s.closeLoad s.ports.time)).trans (hst _ _)

/-! ## The instructions -/

variable {d}

/-- An instruction commutes with a disturbance it does not see: a part that it reads is changed by `id`. -/
theorem Disturbance.Unseen.exec_on {i : Instr} {s t : State} (hu : d.Unseen i) (h : exec i s = .next t) :
    exec i (d.on s) = .next (d.on t) := by
  cases i with
  | ret =>
    obtain ⟨stack, rng, draws, keyHeld, draw⟩ := d
    obtain rfl : stack = id := hu.stack rfl
    by_cases hsp : s.sp.val = 0
    · cases (exec_ret_of_empty hsp).symm.trans h
      exact exec_ret_of_empty (s := Disturbance.on _ s) hsp
    · have hpos := Nat.pos_of_ne_zero hsp
      cases (exec_ret_of_pos hpos).symm.trans h
      exact exec_ret_of_pos (s := Disturbance.on _ s) hpos
  | call nnn =>
    obtain ⟨stack, rng, draws, keyHeld, draw⟩ := d
    obtain rfl : stack = id := hu.stack rfl
    by_cases hlt : s.sp.val < 16
    · cases (exec_call_of_lt nnn hlt).symm.trans h
      exact exec_call_of_lt (s := Disturbance.on _ s) nnn hlt
    · have hfull : s.sp.val = 16 := by omega
      cases (exec_call_of_full nnn hfull).symm.trans h
      exact exec_call_of_full (s := Disturbance.on _ s) nnn hfull
  | skp x =>
    obtain ⟨stack, rng, draws, keyHeld, draw⟩ := d
    obtain rfl : keyHeld = id := hu.keys x (.inl rfl)
    by_cases hle : (s.getV x).toNat ≤ 15
    · cases (exec_skp_of_le hle).symm.trans h
      exact (exec_skp_of_le (s := Disturbance.on _ s) hle).trans (congrArg _ (Disturbance.on_skipIf _ s _))
    · have hge : 16 ≤ (s.getV x).toNat := by omega
      cases (exec_skp_of_ge hge).symm.trans h
      exact exec_skp_of_ge (s := Disturbance.on _ s) hge
  | sknp x =>
    obtain ⟨stack, rng, draws, keyHeld, draw⟩ := d
    obtain rfl : keyHeld = id := hu.keys x (.inr rfl)
    by_cases hle : (s.getV x).toNat ≤ 15
    · cases (exec_sknp_of_le hle).symm.trans h
      exact (exec_sknp_of_le (s := Disturbance.on _ s) hle).trans (congrArg _ (Disturbance.on_skipIf _ s _))
    · have hge : 16 ≤ (s.getV x).toNat := by omega
      cases (exec_sknp_of_ge hge).symm.trans h
      exact exec_sknp_of_ge (s := Disturbance.on _ s) hge
  | rnd x nn =>
    obtain ⟨stack, rng, draws, keyHeld, draw⟩ := d
    obtain ⟨hrng, hdraws, hdraw⟩ := hu.random x nn rfl
    obtain rfl : rng = id := hrng
    obtain rfl : draws = id := hdraws
    obtain rfl : draw = id := hdraw
    cases h
    rfl
  | seImm | sneImm | seReg | sneReg => cases h; exact congrArg _ (d.on_skipIf s _)
  | drw x y n => cases h; exact congrArg _ (d.on_drawRows (s.setV vf 0#8) _ _ _ _ _)
  | ldVxK x => cases h; exact congrArg _ (d.on_waitKey s x)
  | ldB | storeRegs => cases h; exact congrArg _ (d.on_storeSeq s _ _ _)
  | loadRegs x => cases h; exact congrArg _ (d.on_loadSeq s _ _ _ _)
  | cls | jp | jpV0 | ldImm | addImm | ldReg | orReg | andReg | xorReg | addReg | subReg | shrReg | subnReg | shlReg
  | ldI | addI | ldF | ldVxDT | ldDTVx | ldSTVx => cases h; rfl

/-! ## The step -/

theorem Disturbance.runWord_on {s t : State} {w : Word} (hu : ∀ i, decodeWord w = .ok i → d.Unseen i)
    (h : runWord s w = .next t) : runWord (d.on s) w = .next (d.on t) := by
  cases hd : decodeWord w with
  | ok i =>
    rw [runWord_ok hd] at h ⊢
    exact (hu i hd).exec_on h
  | error r =>
    cases (runWord_error hd).symm.trans h
    exact runWord_error hd

/-- A step commutes with a disturbance that its instruction does not see; a step that runs none sees no disturbance. -/
theorem Disturbance.step_on {s t : State} (hu : ∀ i, s.nextInstr = some i → d.Unseen i) (h : step s = .next t) :
    step (d.on s) = .next (d.on t) := by
  cases hf : s.fault with
  | some r =>
    cases (step_halted hf).symm.trans h
    exact step_halted (s := d.on s) hf
  | none =>
    cases hk : s.keyWait with
    | some x =>
      cases (step_waiting hf hk).symm.trans h
      exact (step_waiting (s := d.on s) hf hk).trans (congrArg _ (d.on_waitKey s x))
    | none =>
      by_cases hp : s.pc.toNat + 1 < 4096
      · rw [step_fetched ⟨hf, hk⟩ hp] at h
        rw [step_fetched (s := d.on s) ⟨hf, hk⟩ hp, d.on_beginStep]
        refine Disturbance.runWord_on (fun i hi => hu i ?_) h
        rw [State.nextInstr_of_running ⟨hf, hk⟩ (State.fetch_ok s hp)]
        exact congrArg Except.toOption hi
      · have hge : 4096 ≤ s.pc.toNat + 1 := by omega
        cases (step_fetchFault ⟨hf, hk⟩ hge).symm.trans h
        rw [step_fetchFault (s := d.on s) ⟨hf, hk⟩ hge, d.on_beginStep]
        rfl

/-! ## The random source -/

/-- The disturbance that puts another random source in place: `RNG`, the count of draws, the draw presented. -/
def Disturbance.ofSource (rng : Word) (draws : Nat) (draw : Option Byte) : Disturbance where
  rng := fun _ => rng
  draws := fun _ => draws
  draw := fun _ => draw

theorem Disturbance.ofSource_unseen (rng : Word) (draws : Nat) (draw : Option Byte) {i : Instr}
    (hi : ∀ x nn, i ≠ .rnd x nn) : (Disturbance.ofSource rng draws draw).Unseen i where
  stack := fun _ => rfl
  keys := fun _ _ => rfl
  random := fun x nn h => absurd h (hi x nn)

/-! ## Dead stack entries -/

/-- The disturbance that puts another list of stack entries in place. -/
def Disturbance.ofStack (stack : Vector Word 16) : Disturbance := { stack := fun _ => stack }

theorem Disturbance.ofStack_unseen (stack : Vector Word 16) {i : Instr} (hi : i.usesStack = false) :
    (Disturbance.ofStack stack).Unseen i where
  stack := fun h => Bool.noConfusion (h.symm.trans hi)
  keys := fun _ _ => rfl
  random := fun _ _ _ => ⟨rfl, rfl, rfl⟩

/-- The two states agree but for stack entries at `SP` and above. -/
def State.sameLive (t u : State) : Prop :=
  u = { t with stack := u.stack } ∧ ∀ k : Fin 16, k.val < t.sp.val → u.stack[k] = t.stack[k]

theorem State.sameLive_withStack {t : State} {stack : Vector Word 16}
    (h : ∀ k : Fin 16, k.val < t.sp.val → stack[k] = t.stack[k]) : t.sameLive { t with stack := stack } :=
  ⟨rfl, h⟩

theorem stack_set_same {old new : Vector Word 16} {n : Nat} (hn : n < 16)
    (h : ∀ k : Fin 16, k.val < n → new[k] = old[k]) (w : Word) (k : Fin 16) (hk : k.val < n + 1) :
    (new.set n w hn)[k] = (old.set n w hn)[k] := by
  by_cases he : n = k.val
  · subst he
    simp
  · have := h k (by omega)
    simpa [Vector.getElem_set, he] using this

/-- The calls and returns use live entries only, and a call writes the entry it makes live. -/
theorem exec_sameLive {i : Instr} {s t : State} {stack : Vector Word 16}
    (hlive : ∀ k : Fin 16, k.val < s.sp.val → stack[k] = s.stack[k]) (h : exec i s = .next t) :
    ∃ u, exec i { s with stack := stack } = .next u ∧ t.sameLive u := by
  by_cases hi : i.usesStack = true
  · cases i with
    | ret =>
      by_cases hsp : s.sp.val = 0
      · cases (exec_ret_of_empty hsp).symm.trans h
        exact ⟨_, exec_ret_of_empty (s := { s with stack := stack }) hsp, State.sameLive_withStack hlive⟩
      · have hpos := Nat.pos_of_ne_zero hsp
        have htop := hlive ⟨s.sp.val - 1, by omega⟩ (Nat.sub_lt hpos Nat.one_pos)
        cases (exec_ret_of_pos hpos).symm.trans h
        exact ⟨_, exec_ret_of_pos (s := { s with stack := stack }) hpos, congrArg (State.setPc _) htop,
          fun k hk => hlive k (Nat.lt_of_lt_of_le hk (Nat.sub_le _ _))⟩
    | call nnn =>
      by_cases hlt : s.sp.val < 16
      · cases (exec_call_of_lt nnn hlt).symm.trans h
        exact ⟨_, exec_call_of_lt (s := { s with stack := stack }) nnn hlt, rfl, stack_set_same hlt hlive s.pc⟩
      · have hfull : s.sp.val = 16 := by omega
        cases (exec_call_of_full nnn hfull).symm.trans h
        exact ⟨_, exec_call_of_full (s := { s with stack := stack }) nnn hfull, State.sameLive_withStack hlive⟩
    | _ => cases hi
  · have hi' := Bool.eq_false_iff.2 hi
    obtain ⟨hstack, hsp⟩ := (effect_of_exec h).stack_eq hi'
    exact ⟨_, (Disturbance.ofStack_unseen stack hi').exec_on h,
      State.sameLive_withStack (by rw [hstack, hsp]; exact hlive)⟩

theorem StepEffect.stack_eq_of_no_instr {s t : State} (heff : StepEffect s t) (hi : s.nextInstr = none) :
    t.stack = s.stack ∧ t.sp = s.sp := by
  cases heff with
  | halted => exact ⟨rfl, rfl⟩
  | waiting => rw [State.waitKey_fields]; exact ⟨rfl, rfl⟩
  | fetchFault | invalid => rw [State.beginStep_fields]; exact ⟨rfl, rfl⟩
  | ran _ _ hsome => cases hi.symm.trans hsome

theorem step_sameLive {s t : State} {stack : Vector Word 16}
    (hlive : ∀ k : Fin 16, k.val < s.sp.val → stack[k] = s.stack[k]) (h : step s = .next t) :
    ∃ u, step { s with stack := stack } = .next u ∧ t.sameLive u := by
  cases hi : s.nextInstr with
  | some i =>
    obtain ⟨-, -, hstep⟩ := step_of_nextInstr hi
    obtain ⟨-, -, hstep'⟩ := step_of_nextInstr (s := { s with stack := stack }) hi
    have hbegin : State.beginStep { s with stack := stack } = { s.beginStep with stack := stack } :=
      (Disturbance.ofStack stack).on_beginStep s
    rw [hstep', hbegin]
    refine exec_sameLive (s := s.beginStep.advance) ?_ (hstep.symm.trans h)
    rw [State.beginStep_fields]
    exact hlive
  | none =>
    have hdisturbed := Disturbance.step_on (d := .ofStack stack) (fun i hs => by cases hi.symm.trans hs) h
    obtain ⟨hstack, hsp⟩ := (stepEffect_of_step h).stack_eq_of_no_instr hi
    exact ⟨_, hdisturbed, State.sameLive_withStack (by rw [hstack, hsp]; exact hlive)⟩

end Sys2Proof.Machine

open Sys2Proof Sys2Proof.Machine

/-- Settles O51: another random source is a disturbance that only `Cxnn` sees. -/
theorem randomSourceMattersToRndOnly : Obligations.RandomSourceMattersToRndOnly :=
  fun _ _ w draw draws hn h =>
    Disturbance.step_on (d := .ofSource w draws draw)
      (fun _ hi => Disturbance.ofSource_unseen w draws draw fun x nn he => hn x nn (he ▸ hi)) h

/-- Settles O53: the instruction's case is `exec_sameLive`, where a call writes the entry it makes live. -/
theorem deadStackEntriesAreUnobservable : Obligations.DeadStackEntriesAreUnobservable :=
  fun _ _ _ hlive h => step_sameLive hlive h
end

section
/-! The word an instruction encodes to, read back: as a number, by the decoder, and by the fetch. -/

namespace Sys2Proof

theorem wordOfBytes_toNat (hi lo : Byte) : (wordOfBytes hi lo).toNat = hi.toNat * 256 + lo.toNat := by
  rw [wordOfBytes, BitVec.toNat_ofNat, Nat.mod_eq_of_lt (by omega)]

/-- The words of family F as R95 writes them: `Fx` and the sub-opcode. -/
theorem formatXI_F_toNat (x : RegIx) (b : Byte) : (formatXI 0xF x b).toNat = 0xF000 + b.toNat + x.toNat * 256 := by
  rw [formatXI_toNat]
  show 0xF * 4096 + x.toNat * 256 + b.toNat = _
  omega

@[simp] theorem tableWord_toNat (w : Word) : tableWord 16 w.toNat = w := by
  rw [tableWord, Nat.mod_eq_of_lt w.isLt, BitVec.ofNat_toNat, BitVec.setWidth_eq]

/-- The decoder reads back every operand: it selects by the fields that the format of the instruction fixes. -/
theorem decodeWord_encode (i : Instr) : decodeWord (encode i) = .ok i := by
  cases i with
  | cls | ret => rfl
  | jp | call | seImm | sneImm | seReg | ldImm | addImm | sneReg | ldI | jpV0 | rnd | drw =>
    simp [decodeWord, encode]
  | ldReg | orReg | andReg | xorReg | addReg | subReg | shrReg | subnReg | shlReg =>
    simp [decodeWord, decode8, encode]
  | skp | sknp => simp [decodeWord, decodeE, encode]
  | ldVxDT | ldVxK | ldDTVx | ldSTVx | addI | ldF | ldB | storeRegs | loadRegs =>
    simp [decodeWord, decodeF, encode]

end Sys2Proof

namespace Sys2Proof.Machine

/-- What consecutive writes leave at the address of the `k`-th byte. -/
theorem Memory.read_writeBytes_getElem? {m : Memory} (h : m.wf) {a k : Nat} {bs : List Byte} {b : Byte}
    (hfit : a + bs.length ≤ memSize) (hb : bs[k]? = some b) : (m.writeBytes a bs).read (a + k) = b := by
  rw [Memory.read_writeBytes h a (a + k) bs hfit, if_pos (Nat.le_add_right a k), Nat.add_sub_cancel_left, hb]
  rfl

theorem State.fetch_placeWord {s : State} (hm : s.mem.wf) (hp : s.pc.toNat + 1 < 4096) (w : Word) :
    (s.placeWord w).fetch = .ok w := by
  have hfit : s.pc.toNat + [highByte w, lowByte w].length ≤ memSize := hp
  have hhi : (s.placeWord w).mem.read s.pc.toNat = highByte w :=
    Memory.read_writeBytes_getElem? hm (k := 0) hfit rfl
  have hlo : (s.placeWord w).mem.read (s.pc.toNat + 1) = lowByte w :=
    Memory.read_writeBytes_getElem? hm (k := 1) hfit rfl
  have hpc : (s.placeWord w).pc = s.pc := rfl
  rw [State.fetch_ok _ (by rw [hpc]; exact hp), hpc, hhi, hlo, wordOfBytes_high_low]

theorem State.readyToFetch_pc_lt (s : State) : s.readyToFetch.pc.toNat + 1 < 4096 := by
  rw [State.readyToFetch, State.setPc_pc]
  split
  · assumption
  · decide

/-- A word placed by `withFetchWord` in canonical memory is the next instruction when it decodes. -/
theorem State.nextInstr_withFetchWord {s : State} (hm : s.mem.wf) {w : Word} {i : Instr} (hw : decodeWord w = .ok i) :
    (s.withFetchWord 16 w.toNat).nextInstr = some i := by
  have hfetch : (s.withFetchWord 16 w.toNat).fetch = .ok w := by
    rw [State.withFetchWord, tableWord_toNat]
    exact State.fetch_placeWord (s := s.readyToFetch) hm s.readyToFetch_pc_lt w
  rw [State.nextInstr_of_running ⟨rfl, rfl⟩ hfetch, hw]
  rfl

end Sys2Proof.Machine
end

section
/-! Memory (O7, O14, O15, O16, O31, O32, O33): the fetch, byte writes, and the stores and loads whose bytes all fit. -/

namespace Sys2Proof.Machine

/-! ## `V0` to `Vx` as a list -/

@[simp] theorem State.length_regList (s : State) (x : RegIx) : (s.regList x).length = x.toNat + 1 := by
  simp [State.regList, regCount]

theorem State.getElem?_regList (s : State) {x r : RegIx} (hr : r.toNat ≤ x.toNat) :
    (s.regList x)[r.toNat]? = some (s.getV r) := by
  simp [State.regList, regCount, List.getElem?_range (Nat.lt_succ_of_le hr)]

/-! ## Stores and loads in range -/

theorem exec_ldB_of_fits {x : RegIx} {s : State} (h : s.effAddr 2 < 4096) :
    exec (.ldB x) s = .next (s.setMem (s.mem.writeBytes (s.effAddr 0) (bcdDigits (s.getV x)))) :=
  congrArg _ (State.storeSeq_fits s _ _ _ h)

theorem exec_storeRegs_of_fits {x : RegIx} {s : State} (h : s.effAddr x.toNat < 4096) :
    exec (.storeRegs x) s = .next (s.setMem (s.mem.writeBytes (s.effAddr 0) (s.regList x))) :=
  congrArg _ (State.storeSeq_fits s _ _ _ (by rw [State.length_regList]; exact h))

/-- After `Fx55` in range each register stored is at its place. -/
theorem State.read_writeBytes_regList {s : State} (hm : s.mem.wf) {x r : RegIx} (h : s.effAddr x.toNat < 4096)
    (hr : r.toNat ≤ x.toNat) :
    (s.mem.writeBytes (s.effAddr 0) (s.regList x)).read (s.effAddr r.toNat) = s.getV r :=
  Memory.read_writeBytes_getElem? hm (by rw [State.length_regList]; exact h) (s.getElem?_regList hr)

/-- A load in range changes registers only. -/
theorem State.loadSeq_of_fits (s : State) (w : Word) {a n : Nat} (i : Nat) (h : a + n ≤ 4096) :
    s.loadSeq w a i n = { s with v := (s.loadSeq w a i n).v } := by
  have hfault : (s.loadSeq w a i n).fault = s.fault := (State.loadSeq_fault s w a i n).trans (if_pos (.inl h))
  exact (State.loadSeq_fields s w a i n).trans (by rw [hfault])

end Sys2Proof.Machine

open Sys2Proof Sys2Proof.Machine

/-- Settles O7: the two lemmas of the fetch, in range and out of range. -/
theorem fetchIsBigEndianAndBoundsChecked : Obligations.FetchIsBigEndianAndBoundsChecked := by
  intro s
  refine ⟨fun h => ⟨_, State.fetch_ok s (by omega), wordOfBytes_toNat _ _⟩, fun h => ?_, fun h => ?_⟩
  · rw [State.fetch_error s (by omega), h]; rfl
  · rw [State.fetch_error s (by omega), Nat.max_eq_left h]

/-- Settles O16: one write to canonical memory, and the bounds of both accesses. -/
theorem byteWriteChangesThatByteAlone : Obligations.ByteWriteChangesThatByteAlone := by
  intro s a b hm
  refine ⟨fun ha => ⟨_, State.memWrite_lt s b ha, ?_, Memory.write_wf hm ha b, fun k hk => ?_, rfl⟩,
    fun ha => ⟨State.memWrite_ge s b ha, State.memRead_ge s ha⟩⟩
  · rw [State.memRead_lt _ ha, State.setMem_mem, Memory.read_write_self hm]
  · rw [State.memRead, State.memRead, State.setMem_mem, Memory.read_write_ne _ _ hk]

/-- Settles O31: the digits are written at `I` up, one by one. -/
theorem bcdStoresThreeDigits : Obligations.BcdStoresThreeDigits := by
  intro x s hm
  refine ⟨formatXI_F_toNat x 0x33, fun h => ?_⟩
  have hv := (s.getV x).isLt
  have hdigit : ∀ k d, (bcdDigits (s.getV x))[k]? = some (BitVec.ofNat 8 d) → d < 256 →
      ((s.mem.writeBytes (s.effAddr 0) (bcdDigits (s.getV x))).read (s.effAddr k)).toNat = d :=
    fun k d hk hd =>
      (congrArg BitVec.toNat (Memory.read_writeBytes_getElem? hm h hk)).trans (Nat.mod_eq_of_lt hd)
  exact ⟨_, exec_ldB_of_fits h, hdigit 0 _ rfl (by omega), hdigit 1 _ rfl (by omega), hdigit 2 _ rfl (by omega),
    fun a ha => Memory.read_writeBytes_outside _ _ _ _ ha, rfl⟩

/-- Settles O32: each register is written at its place, and nothing outside. -/
theorem registerStoreWritesV0ToVx : Obligations.RegisterStoreWritesV0ToVx := by
  intro x s hm
  refine ⟨formatXI_F_toNat x 0x55, fun h => ⟨_, exec_storeRegs_of_fits h, fun r hr => ?_, fun a ha => ?_, rfl⟩⟩
  · exact State.read_writeBytes_regList hm h hr
  · exact Memory.read_writeBytes_outside _ _ _ _ (by rwa [State.length_regList])

/-- Settles O33: the load raises nothing in range, so only registers change. -/
theorem registerLoadReadsV0ToVx : Obligations.RegisterLoadReadsV0ToVx := by
  intro x s
  refine ⟨formatXI_F_toNat x 0x65, fun h => ⟨_, rfl, fun r hr => ?_, fun r hr => ?_, State.loadSeq_of_fits s _ 0 h⟩⟩
  all_goals rw [State.getV_loadSeq _ _ _ _ _ (by rw [regCount]; omega), regCount]
  · have hin : s.effAddr 0 + r.toNat < 4096 := by simp only [State.effAddr] at h ⊢; omega
    rw [if_pos ⟨Nat.zero_le _, by omega, hin⟩]
    rfl
  · rw [if_neg (by omega)]

/-- Settles O14: `V0` and `V1` are stored at the two addresses of the fetch. -/
theorem storeIsSeenByTheNextFetch : Obligations.StoreIsSeenByTheNextFetch := by
  intro s t x hm hx hpc hfit h
  cases (exec_storeRegs_of_fits hfit).symm.trans h
  have hhi := State.read_writeBytes_regList hm (r := 0) hfit (Nat.zero_le _)
  have hlo := State.read_writeBytes_regList hm (r := 1) hfit hx
  refine ⟨_, State.fetch_ok _ ?_, ?_⟩
  · rw [State.setMem_pc, ← hpc]; omega
  · rw [wordOfBytes_toNat, State.setMem_mem, State.setMem_pc, ← hpc]
    exact congrArg₂ (fun u v : Byte => u.toNat * 256 + v.toNat) hhi hlo

/-- Settles O15: the placed word is fetched, and decodes to the instruction. -/
theorem placedWordIsTheOneTheStepRuns : Obligations.PlacedWordIsTheOneTheStepRuns := by
  intro s i hm
  obtain ⟨-, -, hstep⟩ := step_of_nextInstr (State.nextInstr_withFetchWord hm (decodeWord_encode i))
  exact hstep
end

section
/-! The decoder and the opcode map, both ways: encoding a decoded word, the row a word lies in, and the words no row has
(spec/30_encoding.md R91 to R98). -/

namespace Sys2Proof

/-! ## The rows of the opcode map (R95) -/

/-- R97: no operand makes an instruction ill formed, since its row does not depend on its operands. -/
theorem Instr.wellFormed_eq_true (i : Instr) : i.wellFormed = true := by
  cases i <;> rfl

theorem Instr.row_mem_opcodeTable (i : Instr) : i.row ∈ opcodeTable :=
  List.contains_iff_mem.1 i.wellFormed_eq_true

theorem wordLegal_of_row {w : Word} (i : Instr) (h : i.row.applies w = true) : wordLegal w = true :=
  List.any_eq_true.2 ⟨i.row, i.row_mem_opcodeTable, h⟩

/-- R95's match and mask hold of the word of every instruction. -/
theorem Instr.row_applies_encode (i : Instr) : i.row.applies (encode i) = true := by
  rw [OpcodeRow.applies, beq_iff_eq]
  cases i with
  | cls | ret => rfl
  | jp | call | ldI | jpV0 => exact formatA_mask _ _
  | seImm | sneImm | ldImm | addImm | rnd => exact formatXI_mask _ _ _
  | seReg | ldReg | orReg | andReg | xorReg | addReg | subReg | shrReg | subnReg | shlReg | sneReg =>
    exact formatXYN_subMask _ _ _ _
  | drw => exact formatXYN_mask _ _ _ _
  | skp | sknp | ldVxDT | ldVxK | ldDTVx | ldSTVx | addI | ldF | ldB | storeRegs | loadRegs =>
    exact formatXI_subMask _ _ _

/-- Two rows of the opcode map are equal where they agree on the bits that both masks keep. -/
theorem opcodeTable_eq_of_common_bits : ∀ r ∈ opcodeTable, ∀ q ∈ opcodeTable,
    r.value &&& q.mask = q.value &&& r.mask → r = q := by
  decide

/-- R95: no word lies in two rows. -/
theorem Instr.row_eq_of_applies {w : Word} {i j : Instr} (hi : i.row.applies w = true) (hj : j.row.applies w = true) :
    i.row = j.row := by
  rw [OpcodeRow.applies, beq_iff_eq] at hi hj
  refine opcodeTable_eq_of_common_bits _ i.row_mem_opcodeTable _ j.row_mem_opcodeTable ?_
  rw [← hi, ← hj, BitVec.and_assoc, BitVec.and_assoc, BitVec.and_comm i.row.mask]

/-! ## The dispatch on the top nibble (R94) -/

/-- What the decoder answers for each value of `op`: the table of R94, with `decodeWord_dispatch` its tie to the model. -/
inductive Dispatch (w : Word) : Except Reject Instr → Prop where
  | family0 (hop : opOf w = 0x0) : Dispatch w (decode0 w)
  | jp (hop : opOf w = 0x1) : Dispatch w (.ok (.jp (nnnOf w)))
  | call (hop : opOf w = 0x2) : Dispatch w (.ok (.call (nnnOf w)))
  | seImm (hop : opOf w = 0x3) : Dispatch w (.ok (.seImm (xOf w) (nnOf w)))
  | sneImm (hop : opOf w = 0x4) : Dispatch w (.ok (.sneImm (xOf w) (nnOf w)))
  | family5 (hop : opOf w = 0x5) :
    Dispatch w (if nOf w = 0 then .ok (.seReg (xOf w) (yOf w)) else .error .invalidFamily5)
  | ldImm (hop : opOf w = 0x6) : Dispatch w (.ok (.ldImm (xOf w) (nnOf w)))
  | addImm (hop : opOf w = 0x7) : Dispatch w (.ok (.addImm (xOf w) (nnOf w)))
  | family8 (hop : opOf w = 0x8) : Dispatch w (decode8 (xOf w) (yOf w) (nOf w))
  | family9 (hop : opOf w = 0x9) :
    Dispatch w (if nOf w = 0 then .ok (.sneReg (xOf w) (yOf w)) else .error .invalidFamily9)
  | ldI (hop : opOf w = 0xA) : Dispatch w (.ok (.ldI (nnnOf w)))
  | jpV0 (hop : opOf w = 0xB) : Dispatch w (.ok (.jpV0 (nnnOf w)))
  | rnd (hop : opOf w = 0xC) : Dispatch w (.ok (.rnd (xOf w) (nnOf w)))
  | drw (hop : opOf w = 0xD) : Dispatch w (.ok (.drw (xOf w) (yOf w) (nOf w)))
  | familyE (hop : opOf w = 0xE) : Dispatch w (decodeE (xOf w) (nnOf w))
  | familyF (hop : opOf w = 0xF) : Dispatch w (decodeF (xOf w) (nnOf w))

theorem decodeWord_dispatch (w : Word) : Dispatch w (decodeWord w) := by
  have hlt := (opOf w).isLt
  unfold decodeWord
  interval_cases hop : (opOf w).toNat <;> constructor <;> exact BitVec.eq_of_toNat_eq hop

/-! ## Encoding what was decoded (R91, R92) -/

theorem formatA_of_op {w : Word} {op : Nibble} (h : opOf w = op) : formatA op (nnnOf w) = w := by
  rw [← h, formatA_fields]

theorem formatXI_of_op {w : Word} {op : Nibble} (h : opOf w = op) : formatXI op (xOf w) (nnOf w) = w := by
  rw [← h, formatXI_fields]

theorem formatXYN_of_op {w : Word} {op : Nibble} (h : opOf w = op) :
    formatXYN op (xOf w) (yOf w) (nOf w) = w := by
  rw [← h, formatXYN_fields]

theorem encode_of_decode0 {w : Word} {i : Instr} (h : decode0 w = .ok i) : encode i = w := by
  unfold decode0 at h
  split_ifs at h with hw hw <;> cases h <;> exact hw.symm

theorem encode_of_decode8 {x y : RegIx} {n : Nibble} {i : Instr} (h : decode8 x y n = .ok i) :
    encode i = formatXYN 0x8 x y n := by
  unfold decode8 at h
  split at h <;> cases h <;> rw [formatXYN, ‹n.toNat = _›] <;> rfl

theorem encode_of_decodeE {x : RegIx} {nn : Byte} {i : Instr} (h : decodeE x nn = .ok i) :
    encode i = formatXI 0xE x nn := by
  unfold decodeE at h
  split_ifs at h <;> cases h <;> subst nn <;> rfl

theorem encode_of_decodeF {x : RegIx} {nn : Byte} {i : Instr} (h : decodeF x nn = .ok i) :
    encode i = formatXI 0xF x nn := by
  unfold decodeF at h
  split_ifs at h <;> cases h <;> subst nn <;> rfl

theorem encode_of_decodeWord {w : Word} {i : Instr} (h : decodeWord w = .ok i) : encode i = w := by
  have hd := decodeWord_dispatch w
  rw [h] at hd
  generalize hr : Except.ok i = d at hd
  cases hd with
  | family0 => exact encode_of_decode0 hr.symm
  | jp hop | call hop | ldI hop | jpV0 hop => cases hr; exact formatA_of_op hop
  | seImm hop | sneImm hop | ldImm hop | addImm hop | rnd hop => cases hr; exact formatXI_of_op hop
  | family5 hop | family9 hop =>
    split_ifs at hr with hn
    cases hr
    rw [encode, show (0 : Nibble) = nOf w from hn.symm]
    exact formatXYN_of_op hop
  | family8 hop => exact (encode_of_decode8 hr.symm).trans (formatXYN_of_op hop)
  | drw hop => cases hr; exact formatXYN_of_op hop
  | familyE hop => exact (encode_of_decodeE hr.symm).trans (formatXI_of_op hop)
  | familyF hop => exact (encode_of_decodeF hr.symm).trans (formatXI_of_op hop)

/-- A word that decodes lies in the row of its instruction, being that instruction's word. -/
theorem row_applies_of_decodeWord {w : Word} {i : Instr} (h : decodeWord w = .ok i) : i.row.applies w = true := by
  rw [← encode_of_decodeWord h]
  exact i.row_applies_encode

/-! ## The words that are rejected (R96) -/

/-- A selector rejects what its remaining cases reject. -/
theorem exists_ite_ok_eq_error {c : Prop} [Decidable c] (i : Instr) (d : Except Reject Instr) :
    (∃ r, (if c then .ok i else d) = .error r) ↔ ¬ c ∧ ∃ r, d = .error r := by
  split <;> simp [*]

theorem decode8_error_iff (x y : RegIx) (n : Nibble) :
    (∃ r, decode8 x y n = .error r) ↔ 8 ≤ n.toNat ∧ n ≠ 0xE := by
  have hlt := n.isLt
  rw [ne_eq, ← BitVec.toNat_inj, decode8]
  interval_cases n.toNat <;> simp

end Sys2Proof

open Sys2Proof

/-- Settles O1: the row takes no operand, the decoder selects by the fields the format fixes, and two bytes make the
word again. -/
theorem decodeInvertsEncode : Obligations.DecodeInvertsEncode := by
  intro i rest
  refine ⟨i.wellFormed_eq_true, decodeWord_encode i, ?_⟩
  rw [encodeBytes, List.cons_append, List.cons_append, List.nil_append, decodeBytes, wordOfBytes_high_low,
    decodeWord_encode]

/-- Settles O2: each family's selector fixes the bits that are no operand, and the format puts the fields back. -/
theorem encodeInvertsDecode : Obligations.EncodeInvertsDecode := fun _ _ h => encode_of_decodeWord h

/-- Settles O3: a decoded word is its instruction's word, so it lies in that instruction's row and in no other; a word
in a row decodes because the row's mask keeps the bits the decoder selects by. -/
theorem decodeAgreesWithTheOpcodeMap : Obligations.DecodeAgreesWithTheOpcodeMap := by
  intro w
  refine ⟨fun j => ⟨fun hj => ?_, fun ⟨i, hi, hrow⟩ => hrow ▸ row_applies_of_decodeWord hi⟩, fun hlegal => ?_,
    fun ⟨i, hi⟩ => wordLegal_of_row i (row_applies_of_decodeWord hi)⟩
  · have hok := decodeWord_isOk_of_row j hj
    cases hd : decodeWord w with
    | error r => rw [hd] at hok; cases hok
    | ok i => exact ⟨i, rfl, Instr.row_eq_of_applies (row_applies_of_decodeWord hd) hj⟩
  · cases hd : decodeWord w with
    | error r => rw [wordLegal_eq_false_of_reject hd] at hlegal; cases hlegal
    | ok i => exact ⟨i, rfl⟩

/-- Settles O4: a family with no sub-selector rejects nothing, another what its selector leaves over. -/
theorem invalidWordsAreThoseOfSixFamilies : Obligations.InvalidWordsAreThoseOfSixFamilies := by
  intro w
  have hd := decodeWord_dispatch w
  generalize decodeWord w = d at hd ⊢
  cases hd with
  | family0 hop => simp [hop, decode0, exists_ite_ok_eq_error]
  | family5 hop | family9 hop => simp [hop, exists_ite_ok_eq_error]
  | family8 hop => simp [hop, decode8_error_iff]
  | familyE hop => simp [hop, decodeE, exists_ite_ok_eq_error]
  | familyF hop => simp [hop, decodeF, exists_ite_ok_eq_error]
  | jp hop | call hop | seImm hop | sneImm hop | ldImm hop | addImm hop | ldI hop | jpV0 hop | rnd hop | drw hop =>
    simp [hop]

/-- Settles O5: the decoder run on each word. -/
theorem sampleWordsDecodeAsListed : Obligations.SampleWordsDecodeAsListed := by
  unfold Obligations.SampleWordsDecodeAsListed
  decide

end

section
/-! The step cycle (spec/40_step_cycle.md R120 to R126; O6, O8, O9, O12): the two ways a fetch can end, followed to the
state the step answers. -/

namespace Sys2Proof.Machine

/-- `step_fetched` by what the fetch answers, not by where `PC` is. -/
theorem step_of_fetch {s : State} (h : s.running) {w : Word} (hw : s.fetch = .ok w) :
    step s = runWord s.beginStep w := by
  have hp : s.pc.toNat + 1 < 4096 := by
    by_contra hge
    rw [State.fetch_error s (by omega)] at hw
    cases hw
  rw [State.fetch_ok s hp, Except.ok.injEq] at hw
  rw [step_fetched h hp, hw]

theorem State.beginStep_advance (s : State) : s.beginStep.advance = s.beginStep.setPc (s.pc + 2) := by
  rw [State.advance, State.beginStep_pc]; rfl

/-- The byte that a fetch above 0xFFE cannot read: the low byte of the word at 0xFFF, else the byte at `PC` (R64). -/
theorem fetchFault_ea {pc : Word} (h : 0xFFE < pc.toNat) :
    BitVec.ofNat 17 (max pc.toNat 4096) = if pc = 0xFFF then 0x1000 else pc.setWidth 17 := by
  split_ifs with hpc
  · rw [hpc]; rfl
  · have hne : pc.toNat ≠ 0xFFF := fun he => hpc (BitVec.eq_of_toNat_eq he)
    rw [Nat.max_eq_left (by omega), BitVec.ofNat_toNat]

end Sys2Proof.Machine

namespace Sys2Proof

theorem exists_reject_of_wordLegal_eq_false {w : Word} (h : wordLegal w = false) : ∃ r, decodeWord w = .error r := by
  cases hd : decodeWord w with
  | error r => exact ⟨r, rfl⟩
  | ok i => rw [wordLegal_of_row i (row_applies_of_decodeWord hd)] at h; cases h

end Sys2Proof

open Sys2Proof Sys2Proof.Machine

/-- Settles O6: the fetched word is run after the timer check, which keeps `PC`. -/
theorem stepRunsTheDecodedInstruction : Obligations.StepRunsTheDecodedInstruction := by
  intro s w i hrun hw hi
  refine ⟨?_, rfl⟩
  rw [step_of_fetch hrun hw, runWord_ok hi, State.beginStep_advance]

/-- Settles O8: the raise of the fetch writes the record only, and the timer check before it keeps `PC`. -/
theorem fetchFaultLeavesPcAndRecordsTheAddress : Obligations.FetchFaultLeavesPcAndRecordsTheAddress := by
  intro s hrun hp
  refine ⟨_, step_fetchFault hrun (by omega), s.beginStep_pc, ?_, rfl⟩
  rw [← fetchFault_ea hp]
  rfl

/-- Settles O9: a word in no row is rejected, and its raise writes the record only, after the advance. -/
theorem invalidWordFaultsAfterTheAdvance : Obligations.InvalidWordFaultsAfterTheAdvance := by
  intro s w hrun hw hlegal
  obtain ⟨r, hr⟩ := exists_reject_of_wordLegal_eq_false hlegal
  have hstep := step_of_fetch hrun hw
  rw [runWord_error hr, State.beginStep_advance, State.beginStep_pc] at hstep
  exact ⟨_, hstep, rfl, rfl, rfl⟩

/-- Settles O12: every branch of a step, and every instruction one runs, answers a next state. -/
theorem everyStepAnswersANextState : Obligations.EveryStepAnswersANextState := by
  intro s
  obtain ⟨t, hstep, -⟩ := step_has_effect s
  exact ⟨t, hstep⟩
end

section
/-! Control transfer (spec/41_control_flow.md R140 to R147; O25, O26, O27, O29): jumps, comparison skips, and the call and
return by the number of entries in use. -/

namespace Sys2Proof.Machine

/-- R147: the sum of an address and a register is below 2 ^ 16, so `PC` holds it whole. -/
theorem addrOperand_add_wideOperand_toNat (nnn : Addr12) (b : Byte) :
    (addrOperand nnn + wideOperand b).toNat = nnn.toNat + b.toNat := by
  have hb : (wideOperand b).toNat = b.toNat := by rw [wideOperand, BitVec.toNat_setWidth, Nat.mod_eq_of_lt (by omega)]
  rw [BitVec.toNat_add, addrOperand_toNat, hb, Nat.mod_eq_of_lt (by omega)]

theorem State.skipIf_fields (s : State) (c : Bool) : s.skipIf c = { s with pc := (s.skipIf c).pc } := by
  cases c <;> rfl

theorem State.skipIf_beq_pc (s : State) (a b : Byte) : (s.skipIf (a == b)).pc = if a = b then s.pc + 2 else s.pc := by
  simp only [State.skipIf_pc, beq_iff_eq]; rfl

theorem State.skipIf_bne_pc (s : State) (a b : Byte) : (s.skipIf (a != b)).pc = if a = b then s.pc else s.pc + 2 := by
  simp only [State.skipIf_pc, bne_iff_ne, ne_eq, ite_not]; rfl

end Sys2Proof.Machine

open Sys2Proof Sys2Proof.Machine

/-- Settles O26: the call by the room on the stack; the push writes the entry at the depth before it. -/
theorem callPushesOrOverflows : Obligations.CallPushesOrOverflows := by
  intro nnn s
  refine ⟨formatA_toNat 0x2 nnn, fun k hk => ?_, fun hfull => ⟨_, exec_call_of_full nnn hfull, rfl, rfl⟩⟩
  refine ⟨_, exec_call_of_lt nnn (hk ▸ k.isLt), ?_, congrArg (· + 1) hk, addrOperand_toNat nnn, fun j hj => ?_, rfl⟩
  · simp [← hk]
  · have hne : s.sp.val ≠ j.val := fun h => hj (Fin.ext (h.symm.trans hk))
    exact Vector.getElem_set_ne (hk ▸ k.isLt) j.isLt hne

/-- Settles O27: the return by the number of entries; the entry below the depth is read, and the stack stays as it is. -/
theorem returnPopsOrUnderflows : Obligations.ReturnPopsOrUnderflows := by
  intro s
  refine ⟨rfl, fun k hk => ?_, fun hempty => ⟨_, exec_ret_of_empty hempty, rfl, rfl⟩⟩
  have htop : s.sp.val - 1 = k.val := by omega
  exact ⟨_, exec_ret_of_pos (by omega), by simp [htop], htop, rfl⟩

/-- Settles O25: both jumps write `PC` alone, with an address or a sum that fits in it. -/
theorem jumpsSetPcUnchecked : Obligations.JumpsSetPcUnchecked := by
  intro nnn s
  exact ⟨formatA_toNat 0x1 nnn, formatA_toNat 0xB nnn, ⟨_, rfl, addrOperand_toNat nnn, rfl⟩,
    ⟨_, rfl, addrOperand_add_wideOperand_toNat nnn (s.getV 0), rfl⟩⟩

/-- Settles O29: the four skips are `skipIf` on an equality or on its negation. -/
theorem comparisonSkipsMovePcByTwo : Obligations.ComparisonSkipsMovePcByTwo := by
  intro x y nn s
  exact ⟨formatXI_toNat 0x3 x nn, formatXI_toNat 0x4 x nn, formatXYN_toNat 0x5 x y 0, formatXYN_toNat 0x9 x y 0,
    ⟨_, rfl, s.skipIf_beq_pc _ _, s.skipIf_fields _⟩, ⟨_, rfl, s.skipIf_bne_pc _ _, s.skipIf_fields _⟩,
    ⟨_, rfl, s.skipIf_beq_pc _ _, s.skipIf_fields _⟩, ⟨_, rfl, s.skipIf_bne_pc _ _, s.skipIf_fields _⟩⟩
end

section
/-! Register load, arithmetic, logic and shift (spec/42_alu.md R160 to R170; O20 to O24): one write of `Vx`, and for the
flag writers one of `VF` after it. -/

namespace Sys2Proof

/-- The words of family 8 as R95 writes them: `8xy` and the sub-opcode. -/
theorem formatXYN_8_toNat (x y : RegIx) (n : Nibble) :
    (formatXYN 0x8 x y n).toNat = 0x8000 + n.toNat + x.toNat * 256 + y.toNat * 16 := by
  rw [formatXYN_toNat]
  show 0x8 * 4096 + x.toNat * 256 + y.toNat * 16 + n.toNat = _
  omega

end Sys2Proof

namespace Sys2Proof.Machine

/-! ## The flags as numbers -/

theorem flagByte_decide_toNat (p : Prop) [Decidable p] : (flagByte (decide p)).toNat = if p then 1 else 0 := by
  by_cases hp : p <;> simp [flagByte, hp]

theorem flagByte_shrFlag_toNat (b : Byte) : (flagByte (shrFlag b)).toNat = b.toNat % 2 := by
  have hbit : shrFlag b = decide (b.toNat % 2 = 1) := by simp [shrFlag, BitVec.getLsbD, Nat.testBit_zero]
  rw [hbit, flagByte_decide_toNat]
  split <;> omega

theorem flagByte_shlFlag_toNat (b : Byte) : (flagByte (shlFlag b)).toNat = b.toNat / 128 := by
  have hb := b.isLt
  have hbit : shlFlag b = decide (b.toNat / 128 % 2 = 1) := by
    rw [shlFlag, BitVec.getLsbD, Nat.testBit_eq_decide_div_mod_eq]
  rw [hbit, flagByte_decide_toNat]
  split <;> omega

/-! ## The results as numbers -/

theorem sub_toNat_eq_emod (a b : Byte) : ((a - b).toNat : Int) = (a.toNat - b.toNat : Int) % 256 := by
  have hb := b.isLt
  rw [BitVec.toNat_sub]
  omega

theorem shiftRight_one_toNat (b : Byte) : (b >>> 1).toNat = b.toNat / 2 := by
  rw [BitVec.toNat_ushiftRight, Nat.shiftRight_eq_div_pow, Nat.pow_one]

theorem shiftLeft_one_toNat (b : Byte) : (b <<< 1).toNat = b.toNat * 2 % 256 := by
  rw [BitVec.toNat_shiftLeft, Nat.shiftLeft_eq, Nat.pow_one]

/-! ## Writing the result and then the flag -/

/-- What the five flag writers of family 8 have in common, for a result `m` in the reading `f` of a byte: the flag is
written last, so it stays also where `VF` is the destination (R11), and nothing else changes. -/
theorem exec_writesResultAndFlag {α : Type} (f : Byte → α) {i : Instr} {s : State} {x : RegIx} {r : Byte} {c : Bool}
    {m : α} {k : Nat} (h : exec i s = .next (s.setWithFlag x r c)) (hr : f r = m) (hc : (flagByte c).toNat = k) :
    ∃ t, exec i s = .next t ∧ (x ≠ vf → f (t.getV x) = m) ∧ (t.getV vf).toNat = k ∧
      (∀ z, z ≠ x → z ≠ vf → t.getV z = s.getV z) ∧ t = { s with v := t.v } := by
  refine ⟨_, h, fun hx => ?_, ?_, fun z hzx hzf => ?_, rfl⟩
  · rw [State.getV_setWithFlag, if_neg hx, if_pos rfl, hr]
  · rw [State.getV_setWithFlag, if_pos rfl, hc]
  · rw [State.getV_setWithFlag, if_neg hzf, if_neg hzx]

end Sys2Proof.Machine

open Sys2Proof Sys2Proof.Machine

/-- Settles O22: the sum is written, then the carry. -/
theorem addSetsCarryInVF : Obligations.AddSetsCarryInVF := by
  intro x y s
  exact ⟨formatXYN_8_toNat x y 4,
    exec_writesResultAndFlag BitVec.toNat rfl (BitVec.toNat_add _ _) (flagByte_decide_toNat _)⟩

/-- Settles O23: the difference is written, then whether the subtrahend is at most the minuend, as both were before. -/
theorem subtractionsSetNotBorrowInVF : Obligations.SubtractionsSetNotBorrowInVF := by
  intro x y s
  exact ⟨formatXYN_8_toNat x y 5, formatXYN_8_toNat x y 7,
    exec_writesResultAndFlag (fun b => (b.toNat : Int)) rfl (sub_toNat_eq_emod _ _) (flagByte_decide_toNat _),
    exec_writesResultAndFlag (fun b => (b.toNat : Int)) rfl (sub_toNat_eq_emod _ _) (flagByte_decide_toNat _)⟩

/-- Settles O24: `Vy` shifted is written, then the bit of `Vy` that the shift drops. -/
theorem shiftsReadVyAndReportTheLostBit : Obligations.ShiftsReadVyAndReportTheLostBit := by
  intro x y s
  exact ⟨formatXYN_8_toNat x y 6, formatXYN_8_toNat x y 0xE,
    exec_writesResultAndFlag BitVec.toNat rfl (shiftRight_one_toNat _) (flagByte_shrFlag_toNat _),
    exec_writesResultAndFlag BitVec.toNat rfl (shiftLeft_one_toNat _) (flagByte_shlFlag_toNat _)⟩

/-- Settles O20: both write `Vx` once; a sum of bytes wraps at 256. -/
theorem immediateLoadAndAddWriteVxOnly : Obligations.ImmediateLoadAndAddWriteVxOnly := by
  intro x nn s
  refine ⟨formatXI_toNat 0x6 x nn, formatXI_toNat 0x7 x nn,
    ⟨_, rfl, State.getV_setV_self _ _ _, fun r hr => State.getV_setV_ne _ _ hr, rfl⟩,
    ⟨_, rfl, ?_, fun r hr => State.getV_setV_ne _ _ hr, rfl⟩⟩
  rw [State.getV_setV_self]
  exact BitVec.toNat_add _ _

/-- Settles O21: each writes `Vx` once, and the logic operations act on each bit alone. -/
theorem copyAndLogicWriteVxOnly : Obligations.CopyAndLogicWriteVxOnly := by
  intro x y s
  refine ⟨formatXYN_8_toNat x y 0, formatXYN_8_toNat x y 1, formatXYN_8_toNat x y 2, formatXYN_8_toNat x y 3,
    ⟨_, rfl, State.getV_setV_self _ _ _, fun r hr => State.getV_setV_ne _ _ hr, rfl⟩,
    ⟨_, rfl, fun b => ?_, fun r hr => State.getV_setV_ne _ _ hr, rfl⟩,
    ⟨_, rfl, fun b => ?_, fun r hr => State.getV_setV_ne _ _ hr, rfl⟩,
    ⟨_, rfl, fun b => ?_, fun r hr => State.getV_setV_ne _ _ hr, rfl⟩⟩
  · rw [State.getV_setV_self, BitVec.getLsbD_or]
  · rw [State.getV_setV_self, BitVec.getLsbD_and]
  · rw [State.getV_setV_self, BitVec.getLsbD_xor]
end

section
/-! Index register and memory (spec/43_index_memory.md R190 to R195; O30, O34, O35, O36): the three writes of `I`, stores
and loads that run past the last address, and the round trip of all registers. -/

namespace Sys2Proof.Machine

/-! ## Operands as numbers -/

theorem wideOperand_toNat (b : Byte) : (wideOperand b).toNat = b.toNat := by
  rw [wideOperand, BitVec.toNat_setWidth, Nat.mod_eq_of_lt (by omega)]

theorem glyphAddress_toNat (b : Byte) : (BitVec.ofNat 16 (b.toNat % 16 * glyphStride)).toNat = (b &&& 0xF).toNat * 5 := by
  have hnibble : (b &&& 0xF).toNat = b.toNat % 16 := Nat.and_two_pow_sub_one_eq_mod b.toNat 4
  rw [hnibble, BitVec.toNat_ofNat, Nat.mod_eq_of_lt (by simp only [glyphStride]; omega)]

/-! ## The part of a store that fits -/

theorem Memory.read_writeBytes_take {m : Memory} (h : m.wf) {a k : Nat} {bs : List Byte} {b : Byte}
    (hb : bs[k]? = some b) (hk : a + k < memSize) : (m.writeBytes a (bs.take (memSize - a))).read (a + k) = b := by
  have hlen := List.length_take_le (memSize - a) bs
  exact Memory.read_writeBytes_getElem? h (by omega) ((List.getElem?_take_of_lt (by omega)).trans hb)

theorem Memory.read_writeBytes_take_outside (m : Memory) {a k : Nat} (bs : List Byte) (hk : k < a ∨ memSize ≤ k) :
    (m.writeBytes a (bs.take (memSize - a))).read k = m.read k := by
  have hlen := List.length_take_le (memSize - a) bs
  exact Memory.read_writeBytes_outside _ _ _ _ (by omega)

/-! ## The registers after `Fx65` -/

/-- In and out of range: `V0` to `Vx` whose byte is in range hold it, every other register is unchanged. -/
theorem State.getV_loadSeq_regCount (s : State) (w : Word) (x r : RegIx) :
    (s.loadSeq w (s.effAddr 0) 0 (regCount x)).getV r =
      if r.toNat ≤ x.toNat ∧ s.effAddr r.toNat < 4096 then s.mem.read (s.effAddr r.toNat) else s.getV r := by
  have haddr : s.effAddr 0 + (r.toNat - 0) = s.effAddr r.toNat := rfl
  have hrange : 0 ≤ r.toNat ∧ r.toNat < 0 + regCount x ∧ s.effAddr r.toNat < 4096 ↔
      r.toNat ≤ x.toNat ∧ s.effAddr r.toNat < 4096 := by simp only [regCount]; omega
  rw [State.getV_loadSeq _ _ _ _ _ (by simp only [regCount]; omega), haddr]
  simp only [hrange]

end Sys2Proof.Machine

open Sys2Proof Sys2Proof.Machine

/-- Settles O30: each writes `I` alone; the sum wraps at 65536, and a glyph's address fits. -/
theorem indexWritesChangeIndexOnly : Obligations.IndexWritesChangeIndexOnly := by
  intro nnn x s
  refine ⟨formatA_toNat 0xA nnn, formatXI_F_toNat x 0x1E, formatXI_F_toNat x 0x29,
    ⟨_, rfl, addrOperand_toNat nnn, rfl⟩, ⟨_, rfl, ?_, rfl⟩, ⟨_, rfl, glyphAddress_toNat (s.getV x), rfl⟩⟩
  rw [State.setIndex_index, BitVec.toNat_add, wideOperand_toNat]

/-- Settles O34: both instructions store a nonempty list at `I` up, which writes the part that fits and then raises. -/
theorem storePastMemoryKeepsTheBytesBefore : Obligations.StorePastMemoryKeepsTheBytesBefore := by
  intro i bytes x s hm hi hpast
  have hstore : exec i s = .next (s.storeSeq (encode i) (s.effAddr 0) bytes) ∧ bytes.length = i.storeLength ∧
      bytes ≠ [] := by
    rcases hi with ⟨rfl, rfl⟩ | ⟨rfl, rfl⟩
    · exact ⟨rfl, rfl, List.cons_ne_nil _ _⟩
    · exact ⟨rfl, s.length_regList x, List.ne_nil_of_length_eq_add_one (s.length_regList x)⟩
  obtain ⟨hexec, hlen, hne⟩ := hstore
  rw [State.storeSeq_overflows s _ _ _ hne hpast] at hexec
  exact ⟨_, hexec, hlen, fun k b hb hk => Memory.read_writeBytes_take hm hb hk,
    fun a ha => Memory.read_writeBytes_take_outside s.mem bytes ha, rfl, rfl⟩

/-- Settles O35: the registers and the record of the load, with its last address out of range. -/
theorem loadPastMemoryKeepsTheRegistersBefore : Obligations.LoadPastMemoryKeepsTheRegistersBefore := by
  intro x s hpast
  refine ⟨_, rfl, fun r hr hin => ?_, fun r hr => ?_, ?_, State.loadSeq_fields ..⟩
  · rw [State.getV_loadSeq_regCount, if_pos ⟨hr, hin⟩]
  · rw [State.getV_loadSeq_regCount, if_neg (by omega)]
  · rw [State.loadSeq_fault, if_neg (by simp only [regCount, State.effAddr] at hpast ⊢; omega)]
    rfl

/-- Settles O36: the store (O32) puts each register where the load (O33), through the same `I`, reads it. -/
theorem storeThenLoadRoundTripsAllRegisters : Obligations.StoreThenLoadRoundTripsAllRegisters := by
  intro s t u hm hfit hstore hmem hindex
  have haddr : ∀ k, u.effAddr k = s.effAddr k := fun k => congrArg (·.toNat + k) hindex
  obtain ⟨-, hstores⟩ := registerStoreWritesV0ToVx 15 s hm
  obtain ⟨t', ht', hstored, -, -⟩ := hstores hfit
  cases ht'.symm.trans hstore
  obtain ⟨-, hloads⟩ := registerLoadReadsV0ToVx 15 u
  obtain ⟨v, hv, hloaded, -, hframe⟩ := hloads ((haddr 15).trans_lt hfit)
  refine ⟨v, hv, (congrArg State.fault hframe :), fun r => ?_⟩
  have hr : r.toNat ≤ (15 : RegIx).toNat := Nat.le_of_lt_succ r.isLt
  rw [hloaded r hr, haddr, hmem, hstored r hr]
end

section
/-! The framebuffer (spec/44_display.md R210 to R213; O37 to O40): the clear, and the rows of a draw up to its end or to
the row that raises. -/

namespace Sys2Proof.Machine

/-- The first `k` rows of a draw at the latched coordinates, after the reset of `VF` (R211): what a `Dxyn` of `k` rows
does, and what one that raises at row `k` has done by then. -/
def State.drawSprite (s : State) (w : Word) (vx vy k : Nat) : State := (s.setV vf 0#8).drawRows w vx vy 0 k

theorem exec_drw (x y : RegIx) (n : Nibble) (s : State) :
    exec (.drw x y n) s =
      .next (s.drawSprite (encode (.drw x y n)) (s.getV x).toNat (s.getV y).toNat n.toNat) := rfl

/-! ## What a draw leaves unchanged -/

section
variable (s : State) (w : Word) (vx vy k : Nat)

theorem State.drawSprite_fields :
    s.drawSprite w vx vy k =
      { s with
        v := (s.drawSprite w vx vy k).v
        fb := (s.drawSprite w vx vy k).fb
        fault := (s.drawSprite w vx vy k).fault } := State.drawRows_fields ..

@[simp] theorem State.drawSprite_index : (s.drawSprite w vx vy k).index = s.index := by rw [State.drawSprite_fields]

@[simp] theorem State.drawSprite_pc : (s.drawSprite w vx vy k).pc = s.pc := by rw [State.drawSprite_fields]

@[simp] theorem State.drawSprite_mem : (s.drawSprite w vx vy k).mem = s.mem := by rw [State.drawSprite_fields]

@[simp] theorem State.spriteBit_drawSprite (row col : Nat) :
    (s.drawSprite w vx vy k).spriteBit row col = s.spriteBit row col := by simp [State.spriteBit, State.effAddr]

/-- R264: a draw past the last address draws the rows before it and raises there. -/
theorem State.drawSprite_overflows {n : Nat} (hn : 0 < n) (hpast : 4096 < s.index.toNat + n) :
    s.drawSprite w vx vy n =
      (s.drawSprite w vx vy (4096 - s.index.toNat)).raiseExec .memoryOutOfRange w (max s.index.toNat 4096) :=
  State.drawRows_overflows (s.setV vf 0#8) w vx vy 0 n hn hpast

end

/-! ## What a draw in range changes -/

section
variable {s : State} {w : Word} {vx vy k : Nat} (hfit : k = 0 ∨ s.index.toNat + k ≤ 4096)
include hfit

theorem State.drawSprite_fault : (s.drawSprite w vx vy k).fault = s.fault :=
  State.drawRows_fault (s.setV vf 0#8) w vx vy 0 k hfit.symm

theorem State.pixel_drawSprite_other {px : Fin 64} {py : Fin 32} (hpx : ¬ drawTarget vx vy k px py) :
    (s.drawSprite w vx vy k).pixel px py = s.pixel px py :=
  State.pixel_drawRows_other (s.setV vf 0#8) w vx vy 0 k px py hfit.symm
    fun row _ hrow col hcol ⟨hx, hy⟩ => hpx ⟨row, col, by omega, hcol, hx, hy⟩

theorem State.getV_drawSprite_ne {r : RegIx} (hk : k ≤ 32) (hr : r ≠ vf) :
    (s.drawSprite w vx vy k).getV r = s.getV r := by
  have hkeep := (State.getV_drawRows (s.setV vf 0#8) w vx vy 0 k hfit.symm (by omega) r).2 fun h => hr h.1
  exact hkeep.trans (State.getV_setV_ne _ _ hr)

theorem State.getV_drawSprite_vf_of_collision (hk : k ≤ 32) (hc : s.collision vx vy k) :
    (s.drawSprite w vx vy k).getV vf = 1 := by
  obtain ⟨row, col, hrow, hcol, hbit, hlit⟩ := hc
  exact (State.getV_drawRows (s.setV vf 0#8) w vx vy 0 k hfit.symm (by omega) vf).1
    ⟨rfl, row, col, Nat.zero_le _, by omega, hcol, hbit, hlit⟩

theorem State.getV_drawSprite_vf_of_not_collision (hk : k ≤ 32) (hc : ¬ s.collision vx vy k) :
    (s.drawSprite w vx vy k).getV vf = 0 := by
  have hreset := (State.getV_drawRows (s.setV vf 0#8) w vx vy 0 k hfit.symm (by omega) vf).2
    fun ⟨_, row, col, _, hrow, hcol, hbit, hlit⟩ => hc ⟨row, col, by omega, hcol, hbit, hlit⟩
  exact hreset.trans (State.getV_setV_self _ _ _)

theorem State.getV_drawSprite_vf_iff (hk : k ≤ 32) :
    (s.drawSprite w vx vy k).getV vf = 1 ↔ s.collision vx vy k := by
  refine ⟨fun hset => ?_, State.getV_drawSprite_vf_of_collision hfit hk⟩
  by_contra hc
  rw [State.getV_drawSprite_vf_of_not_collision hfit hk hc] at hset
  exact absurd hset (by decide)

theorem State.pixel_drawSprite_target {row col : Nat} (hk : k ≤ 32) (hrow : row < k) (hcol : col < 8) :
    (s.drawSprite w vx vy k).pixel (wrapX (vx + col)) (wrapY (vy + row)) =
      (s.pixel (wrapX (vx + col)) (wrapY (vy + row)) ^^ s.spriteBit row col) :=
  State.pixel_drawRows_target (s.setV vf 0#8) w vx vy 0 k row col hfit.symm (by omega) (Nat.zero_le _) (by omega) hcol

/-! ## The same sprite drawn twice -/

theorem State.pixel_drawSprite_drawSprite (hk : k ≤ 32) (px : Fin 64) (py : Fin 32) :
    ((s.drawSprite w vx vy k).drawSprite w vx vy k).pixel px py = s.pixel px py := by
  have hfit' : k = 0 ∨ (s.drawSprite w vx vy k).index.toNat + k ≤ 4096 := by rwa [State.drawSprite_index]
  by_cases hpx : drawTarget vx vy k px py
  · obtain ⟨row, col, hrow, hcol, rfl, rfl⟩ := hpx
    rw [State.pixel_drawSprite_target hfit' hk hrow hcol, State.spriteBit_drawSprite,
      State.pixel_drawSprite_target hfit hk hrow hcol, Bool.xor_assoc, Bool.xor_self, Bool.xor_false]
  · rw [State.pixel_drawSprite_other hfit' hpx, State.pixel_drawSprite_other hfit hpx]

/-- A 1 bit meets a lit pixel of the second draw where it met a dark one of the first. -/
theorem State.collision_drawSprite_iff (hk : k ≤ 32) :
    (s.drawSprite w vx vy k).collision vx vy k ↔
      ∃ row col, row < k ∧ col < 8 ∧ s.spriteBit row col = true ∧
        s.pixel (wrapX (vx + col)) (wrapY (vy + row)) = false := by
  refine exists_congr fun row => exists_congr fun col => ?_
  refine and_congr_right fun hrow => and_congr_right fun hcol => ?_
  rw [State.spriteBit_drawSprite, State.pixel_drawSprite_target hfit hk hrow hcol]
  refine and_congr_right fun hbit => ?_
  rw [hbit, Bool.xor_true, Bool.not_eq_true']

end

/-! ## The clear -/

theorem State.pixel_setFb_blank (s : State) (px : Fin 64) (py : Fin 32) :
    (s.setFb Framebuffer.blank).pixel px py = false := by
  simp [State.pixel, Framebuffer.blank]

end Sys2Proof.Machine

open Sys2Proof Sys2Proof.Machine

/-- Settles O38: the rows of the draw, all of them in range. -/
theorem drawXorsTheSpriteAndReportsCollision : Obligations.DrawXorsTheSpriteAndReportsCollision := by
  intro x y n s
  refine ⟨formatXYN_toNat 0xD x y n, fun hn => ?_⟩
  have hfit : n.toNat = 0 ∨ s.index.toNat + n.toNat ≤ 4096 := hn.imp_left (congrArg BitVec.toNat)
  have hk : n.toNat ≤ 32 := by omega
  refine ⟨_, exec_drw x y n s, fun row col => State.pixel_drawSprite_target hfit hk,
    fun px py => State.pixel_drawSprite_other hfit, State.getV_drawSprite_vf_of_collision hfit hk,
    State.getV_drawSprite_vf_of_not_collision hfit hk, fun r => State.getV_drawSprite_ne hfit hk, ?_⟩
  have hframe := s.drawSprite_fields (encode (.drw x y n)) (s.getV x).toNat (s.getV y).toNat n.toNat
  rwa [State.drawSprite_fault hfit] at hframe

/-- Settles O39: the rows below the last address are in range, and the raise after them writes the record only. -/
theorem drawPastMemoryKeepsTheRowsBefore : Obligations.DrawPastMemoryKeepsTheRowsBefore := by
  intro x y n s hn hpast
  have hpos : 0 < n.toNat := Nat.pos_of_ne_zero fun h => hn (BitVec.eq_of_toNat_eq h)
  have hfit : 4096 - s.index.toNat = 0 ∨ s.index.toNat + (4096 - s.index.toNat) ≤ 4096 := by omega
  have hk : 4096 - s.index.toNat ≤ 32 := by omega
  have hexec := exec_drw x y n s
  have hframe := s.drawSprite_fields (encode (.drw x y n)) (s.getV x).toNat (s.getV y).toNat n.toNat
  rw [State.drawSprite_overflows _ _ _ _ hpos hpast] at hexec hframe
  refine ⟨_, hexec, fun row col hrow => State.pixel_drawSprite_target hfit hk (by omega),
    fun px py => State.pixel_drawSprite_other hfit, State.getV_drawSprite_vf_of_collision hfit hk,
    State.getV_drawSprite_vf_of_not_collision hfit hk, fun r => State.getV_drawSprite_ne hfit hk, ?_, hframe⟩
  rw [State.raiseExec_fault, State.drawSprite_pc]
  rfl

/-- Settles O40: both draws have the same coordinates and the same sprite, so the second takes back the first. -/
theorem drawingTwiceRestoresTheFramebuffer : Obligations.DrawingTwiceRestoresTheFramebuffer := by
  intro x y n s t hx hy hn hdraw
  have hfit : n.toNat = 0 ∨ s.index.toNat + n.toNat ≤ 4096 := hn.imp_left (congrArg BitVec.toNat)
  have hk : n.toNat ≤ 32 := by omega
  cases (exec_drw x y n s).symm.trans hdraw
  have hagain := exec_drw x y n
    (s.drawSprite (encode (.drw x y n)) (s.getV x).toNat (s.getV y).toNat n.toNat)
  rw [State.getV_drawSprite_ne hfit hk hx, State.getV_drawSprite_ne hfit hk hy] at hagain
  refine ⟨_, hagain, State.pixel_drawSprite_drawSprite hfit hk, ?_⟩
  rw [State.getV_drawSprite_vf_iff (by rwa [State.drawSprite_index]) hk, State.collision_drawSprite_iff hfit hk]

/-- Settles O37: the blank framebuffer, read as pixels and as elements of the port. -/
theorem clearTurnsEveryPixelOff : Obligations.ClearTurnsEveryPixelOff := by
  intro s
  exact ⟨rfl, _, rfl, s.pixel_setFb_blank, fun _ => s.pixel_setFb_blank _ _, rfl⟩
end

section
/-! Keys and timers (spec/45_keys_timers.md R230 to R236; O41, O42, O50): the bit of `key_held` that a key skip samples,
and the held keys as a disturbance that no other instruction sees. -/

namespace Sys2Proof

/-- The words of family E as R95 writes them: `Ex` and the sub-opcode. -/
theorem formatXI_E_toNat (x : RegIx) (b : Byte) : (formatXI 0xE x b).toNat = 0xE000 + b.toNat + x.toNat * 256 := by
  rw [formatXI_toNat]
  show 0xE * 4096 + x.toNat * 256 + b.toNat = _
  omega

end Sys2Proof

namespace Sys2Proof.Machine

/-! ## The key skips -/

/-- R230: a key index in range is not cut when it becomes a bit number. -/
theorem State.held_setWidth (s : State) {b : Byte} (h : b.toNat ≤ 15) :
    s.held (b.setWidth 4) = s.ports.keyHeld.getLsbD b.toNat := by
  rw [State.held, BitVec.toNat_setWidth, Nat.mod_eq_of_lt (by omega)]

theorem State.skipIf_not_pc (s : State) (c : Bool) : (s.skipIf (!c)).pc = if c then s.pc else s.pc + 2 := by
  cases c <;> rfl

/-- R269: both key skips raise on an index above 15, with the index in the record. -/
theorem exec_keySkip_of_ge {i : Instr} {x : RegIx} {s : State} (hi : i = .skp x ∨ i = .sknp x)
    (h : 16 ≤ (s.getV x).toNat) :
    exec i s = .next (s.raiseExec .invalidKeyIndex (encode i) (s.getV x).toNat) := by
  rcases hi with rfl | rfl
  · exact exec_skp_of_ge h
  · exact exec_sknp_of_ge h

/-! ## The held keys -/

/-- The disturbance that holds other keys. -/
def Disturbance.ofKeys (held : BitVec 16) : Disturbance := { keyHeld := fun _ => held }

theorem Disturbance.ofKeys_unseen (held : BitVec 16) {i : Instr} (hi : ∀ x, i ≠ .skp x ∧ i ≠ .sknp x) :
    (Disturbance.ofKeys held).Unseen i where
  stack := fun _ => rfl
  keys := fun x h => absurd h (not_or.2 (hi x))
  random := fun _ _ _ => ⟨rfl, rfl, rfl⟩

theorem Disturbance.ofKeys_on (held : BitVec 16) (s : State) :
    (Disturbance.ofKeys held).on s = s.setPorts { s.ports with keyHeld := held } := rfl

end Sys2Proof.Machine

open Sys2Proof Sys2Proof.Machine

/-- Settles O41: an index up to 15 is the number of the bit sampled; above it both skips raise. -/
theorem keySkipsTestOneHeldBitOrFault : Obligations.KeySkipsTestOneHeldBitOrFault := by
  intro x s
  refine ⟨formatXI_E_toNat x 0x9E, formatXI_E_toNat x 0xA1, fun hle => ⟨?_, ?_⟩, fun hgt i hi => ?_⟩
  · refine ⟨_, exec_skp_of_le hle, ?_, s.skipIf_fields _⟩
    rw [State.skipIf_pc, s.held_setWidth hle]
    rfl
  · refine ⟨_, exec_sknp_of_le hle, ?_, s.skipIf_fields _⟩
    rw [State.skipIf_not_pc, s.held_setWidth hle]
  · refine ⟨_, exec_keySkip_of_ge hi hgt, ?_, rfl⟩
    rw [State.raiseExec_fault, BitVec.ofNat_toNat]
    rfl

/-- Settles O50: other held keys are a disturbance that only the key skips see. -/
theorem heldKeysMatterToKeySkipsOnly : Obligations.HeldKeysMatterToKeySkipsOnly := by
  intro s t held hn h
  rw [← Disturbance.ofKeys_on, ← Disturbance.ofKeys_on]
  refine Disturbance.step_on (fun i hi => Disturbance.ofKeys_unseen held fun x => ?_) h
  obtain ⟨hskp, hsknp⟩ := hn x
  exact ⟨fun he => hskp (he ▸ hi), fun he => hsknp (he ▸ hi)⟩

/-- Settles O42: each is one write, of `Vx` or of the timer. -/
theorem timerMovesChangeOneValue : Obligations.TimerMovesChangeOneValue := by
  intro x s
  exact ⟨formatXI_F_toNat x 0x07, formatXI_F_toNat x 0x15, formatXI_F_toNat x 0x18,
    ⟨_, rfl, State.getV_setV_self _ _ _, fun r hr => State.getV_setV_ne _ _ hr, rfl⟩,
    ⟨_, rfl, rfl, rfl⟩, ⟨_, rfl, rfl, rfl⟩⟩
end

section
/-! The random source (spec/46_random.md R250 to R252; O44, O52): the update of one `Cxnn`, and what each request does to
`RNG` and to the count of draws. -/

namespace Sys2Proof.Machine

theorem exec_rnd (x : RegIx) (nn : Byte) (s : State) :
    exec (.rnd x nn) s = .next (s.advanceRng.setV x (s.drawnByte &&& nn)) := rfl

/-! ## The source over one step -/

theorem State.beginStep_random_source (s : State) : s.beginStep.rng = s.rng ∧ s.beginStep.draws = s.draws := by
  rw [State.beginStep_fields]
  exact ⟨rfl, rfl⟩

/-- R251: a step that executes `Cxnn` draws once, whatever the operands. -/
theorem random_source_of_step_rnd {s t : State} {x : RegIx} {nn : Byte} (h : step s = .next t)
    (hi : s.nextInstr = some (.rnd x nn)) : t.rng = Config.rngNext s.rng ∧ t.draws = s.draws + 1 := by
  obtain ⟨hrng, hdraws⟩ := s.beginStep_random_source
  obtain ⟨-, -, hstep⟩ := step_of_nextInstr hi
  cases (hstep.trans (exec_rnd x nn _)).symm.trans h
  exact ⟨congrArg Config.rngNext hrng, congrArg (· + 1) hdraws⟩

/-- R251 (c): a step that executes no `Cxnn` leaves the source alone. -/
theorem StepEffect.random_source_eq {s t : State} (heff : StepEffect s t)
    (hn : ∀ x nn, s.nextInstr ≠ some (.rnd x nn)) : t.rng = s.rng ∧ t.draws = s.draws := by
  obtain ⟨hrng, hdraws⟩ := s.beginStep_random_source
  cases heff with
  | halted => exact ⟨rfl, rfl⟩
  | waiting => rw [State.waitKey_fields]; exact ⟨rfl, rfl⟩
  | fetchFault | invalid => exact ⟨hrng, hdraws⟩
  | ran _ _ hi heff =>
    obtain ⟨hrng', hdraws'⟩ := heff.random_source_eq fun x nn he => hn x nn (he ▸ hi)
    exact ⟨hrng'.trans hrng, hdraws'.trans hdraws⟩

theorem State.load_random_source (s : State) (image : List Byte) :
    (s.load image).rng = s.rng ∧ (s.load image).draws = s.draws := by
  unfold State.load
  split <;> exact ⟨rfl, rfl⟩

end Sys2Proof.Machine

open Sys2Proof Sys2Proof.Machine

/-- Settles O44: one write of `Vx` after one advance of the source, with the drawn byte by the input presented. -/
theorem randomByteIsMaskedAndTheSourceAdvances : Obligations.RandomByteIsMaskedAndTheSourceAdvances := by
  intro x nn s
  refine ⟨formatXI_toNat 0xC x nn, _, exec_rnd x nn s, rfl, rfl, fun b hb => ?_, fun hnone => ?_, fun hgen => ?_, ?_, ?_,
    fun r hr => State.getV_setV_ne _ _ hr, rfl⟩
  all_goals rw [State.getV_setV_self]
  · rw [State.drawnByte_named hb]
  · rw [State.drawnByte_free hnone]
  · rw [State.drawnByte_named hgen]; rfl
  · rw [BitVec.and_assoc, BitVec.and_not_self]; exact BitVec.and_zero
  · rw [BitVec.toNat_and]; exact Nat.and_le_right

/-- Settles O52: by the kind of request, and for a step by whether its instruction is a `Cxnn`. -/
theorem sourceAdvancesOncePerExecutedRnd : Obligations.SourceAdvancesOncePerExecutedRnd := by
  intro s t a h
  cases a with
  | reset time =>
    cases h
    exact ⟨nofun, fun _ => ⟨rfl, fun hne => absurd rfl (hne time), fun _ _ => rfl⟩⟩
  | load image =>
    obtain ⟨hrng, hdraws⟩ := s.load_random_source image
    rw [perform_load_next h]
    exact ⟨nofun, fun _ => ⟨hdraws, fun _ => hrng, nofun⟩⟩
  | step inputs =>
    refine ⟨fun _ x nn _ hi => random_source_of_step_rnd (s := s.setPorts inputs) h hi, fun hn => ?_⟩
    obtain ⟨hrng, hdraws⟩ :=
      (stepEffect_of_step h).random_source_eq (s := s.setPorts inputs) fun x nn => hn inputs x nn rfl
    exact ⟨hdraws, fun _ => hrng, nofun⟩
end

section
/-! Exceptions and timers (spec/60_exceptions.md R260 to R275; O10, O13, O17, O49): what a fault record holds and which
requests keep it, and the arithmetic of the decay rule. -/

namespace Sys2Proof

/-- No instruction raises `InvalidInstruction`: the decode phase alone does (R263). -/
theorem Instr.mayRaise_invalidInstruction (i : Instr) : i.mayRaise .invalidInstruction = false := by
  cases i <;> rfl

end Sys2Proof

namespace Sys2Proof.Machine

/-! ## The causes an instruction raises (R261, R278) -/

/-- The four encodings that R261 lets raise `MemoryOutOfRange` are those of the instructions that may raise it. -/
theorem mayRaise_of_accessesMemory {i : Instr} (h : accessesMemory (encode i)) :
    i.mayRaise .memoryOutOfRange = true := by
  cases i with
  | drw | ldB | storeRegs | loadRegs => rfl
  | cls | ret => exact absurd h (by unfold accessesMemory; decide)
  | jp | call | seImm | sneImm | seReg | ldImm | addImm | ldReg | orReg | andReg | xorReg | addReg | subReg | shrReg
  | subnReg | shlReg | sneReg | ldI | jpV0 | rnd | skp | sknp | ldVxDT | ldVxK | ldDTVx | ldSTVx | addI | ldF =>
    simp [accessesMemory, encode] at h

/-- The record beside an instruction's other effects: an access out of range and the explicit raises write it, with a
cause of the instruction's own; every other effect leaves it. -/
theorem Effect.fault_cases {s t : State} {i : Instr} (h : Effect s i t) :
    t.fault = s.fault ∨ ∃ c ea, i.mayRaise c = true ∧ t.fault = some ⟨c, s.pc - 2#16, encode i, ea⟩ := by
  cases h with
  | draw => exact (State.drawRows_fault_cases _ _ _ _ _ _).imp_right fun h => ⟨_, _, rfl, h⟩
  | store bs _ hw =>
    exact (State.storeSeq_fault _ _ _ bs).imp_right fun h => ⟨_, _, mayRaise_of_accessesMemory hw, h⟩
  | load => exact (State.loadSeq_fault_cases _ _ _ _ _).imp_right fun h => ⟨_, _, rfl, h⟩
  | raise ea hc => exact .inr ⟨_, _, hc, rfl⟩
  | skip c => exact .inl (s.skipIf_fault c)
  | wait x => left; rw [State.waitKey_fields]
  | reg | regAndFlag | index | jump | call | ret | clear | delay | sound | random => exact .inl rfl

/-! ## The record a step leaves (R261 to R264) -/

theorem step_fault_of_fetch_error {s t : State} {e : Nat} (hrun : s.running) (he : s.fetch = .error e)
    (h : step s = .next t) : t.fault = some ⟨.memoryOutOfRange, s.pc, 0, BitVec.ofNat 17 e⟩ := by
  have hp : 4096 ≤ s.pc.toNat + 1 := by
    by_contra hlt
    rw [State.fetch_ok s (by omega)] at he
    cases he
  rw [State.fetch_error s hp] at he
  cases he
  cases (step_fetchFault hrun hp).symm.trans h
  rfl

theorem step_fault_of_invalid_word {s t : State} {w : Word} (hrun : s.running) (hw : s.fetch = .ok w)
    (hlegal : wordLegal w = false) (h : step s = .next t) : t.fault = some ⟨.invalidInstruction, s.pc, w, 0⟩ := by
  obtain ⟨u, hstep, -, hfault, -⟩ := invalidWordFaultsAfterTheAdvance s w hrun hw hlegal
  cases hstep.symm.trans h
  exact hfault

theorem step_fault_of_instr {s t : State} {w : Word} {i : Instr} (hrun : s.running) (hw : s.fetch = .ok w)
    (hi : decodeWord w = .ok i) (h : step s = .next t) :
    t.fault = none ∨ ∃ c ea, i.mayRaise c = true ∧ t.fault = some ⟨c, s.pc, w, ea⟩ := by
  rw [step_of_fetch hrun hw, runWord_ok hi] at h
  have hcases := (effect_of_exec h).fault_cases
  rwa [State.advance_fault, hrun.beginStep.1, State.advance_pc, State.beginStep_pc, BitVec.add_sub_cancel,
    encode_of_decodeWord hi] at hcases

/-! ## The record over every request (R267) -/

theorem State.stepResult_of_fault {s : State} {r : FaultRecord} (h : s.fault = some r) :
    s.stepResult = some .fault := by
  unfold State.stepResult
  rw [h]

theorem State.load_fault (s : State) (image : List Byte) : (s.load image).fault = s.fault := by
  unfold State.load
  split <;> rfl

/-! ## The decay rule in integers (R272) -/

theorem decrementEvent_iff_elapsed (p : Nat) (t : Byte) (last now : Time) :
    decrementEvent p t last now = true ↔ (now.toNat - last.toNat : Int) > p ∧ t ≠ 0 := by
  rw [decrementEvent_iff, and_comm]
  exact and_congr_left fun _ => by omega

/-- What an event takes off: the whole ticks of the time elapsed, of which there is at least one, clamped at 0. -/
theorem lowered_ticksElapsed {p : Nat} (t : Byte) {last now : Time} (hp : 0 < p)
    (h : (now.toNat - last.toNat : Int) > p) :
    ((lowered t (ticksElapsed p last now)).toNat : Int) =
        t.toNat - min (t.toNat : Int) ((now.toNat - last.toNat : Int) / p) ∧
      1 ≤ (now.toNat - last.toNat : Int) / p := by
  have hquot : (now.toNat - last.toNat : Int) / p = ((now.toNat - last.toNat) / p : Nat) := by
    rw [← Nat.cast_sub (by omega), ← Int.natCast_ediv]
  have hone : 1 ≤ (now.toNat - last.toNat) / p := (Nat.one_le_div_iff hp).2 (by omega)
  rw [lowered_toNat, ticksElapsed_eq, hquot]
  omega

end Sys2Proof.Machine

open Sys2Proof Sys2Proof.Machine

/-- Settles O49: by the effect of the instruction. -/
theorem instructionsRaiseOnlyTheirOwnCauses : Obligations.InstructionsRaiseOnlyTheirOwnCauses :=
  fun _ _ _ h => (effect_of_exec h).fault_cases

/-- Settles O10: a load writes no record, a step of a halted engine nothing, and a reset clears the record. -/
theorem haltedEngineChangesNothingUntilReset : Obligations.HaltedEngineChangesNothingUntilReset := by
  intro s r hf
  refine ⟨step_halted hf, State.stepResult_of_fault hf, fun a t h => ?_⟩
  cases a with
  | reset time => cases h; exact .inr ⟨time, rfl, rfl⟩
  | load image => rw [perform_load_next h]; exact .inl ((s.load_fault image).trans hf)
  | step inputs => cases (step_halted (s := s.setPorts inputs) hf).symm.trans h; exact .inl hf

/-- Settles O13: by what the fetch answers, and then by whether the word decodes. -/
theorem stepFaultRecordNamesTheFetchedWord : Obligations.StepFaultRecordNamesTheFetchedWord := by
  intro s t r hrun h hr
  cases hw : s.fetch with
  | error e =>
    cases hr.symm.trans (step_fault_of_fetch_error hrun hw h)
    exact ⟨rfl, fun _ he => by cases he; exact ⟨rfl, rfl, rfl⟩, nofun⟩
  | ok w =>
    cases hd : decodeWord w with
    | error e =>
      have hlegal := wordLegal_eq_false_of_reject hd
      cases hr.symm.trans (step_fault_of_invalid_word hrun hw hlegal h)
      exact ⟨rfl, nofun, fun _ he => by cases he; exact ⟨rfl, iff_of_true rfl hlegal, by simp [hd]⟩⟩
    | ok i =>
      obtain hnone | ⟨c, ea, hc, hfault⟩ := step_fault_of_instr hrun hw hd h
      · cases hr.symm.trans hnone
      · cases hr.symm.trans hfault
        have hlegal : wordLegal w = true := wordLegal_of_row i (row_applies_of_decodeWord hd)
        have hne : c ≠ .invalidInstruction := by
          rintro rfl
          cases i.mayRaise_invalidInstruction.symm.trans hc
        refine ⟨rfl, nofun, fun _ he => ?_⟩
        cases he
        exact ⟨rfl, iff_of_false hne (by simp [hlegal]), fun j hj => by cases hd.symm.trans hj; exact hc⟩

/-- Settles O17: for each timer by whether it has an event; the check of one timer does not see the other's. -/
theorem timerCheckFollowsTheDecayRule : Obligations.TimerCheckFollowsTheDecayRule := by
  intro s hp
  have hdt := decrementEvent_iff_elapsed s.cfg.tickUs s.dt s.dtLast s.ports.time
  have hst := decrementEvent_iff_elapsed s.cfg.tickUs s.st s.stLast s.ports.time
  refine ⟨fun h => ?_, fun h => ?_, fun h => ?_, fun h => ?_, s.timerCheck_fields⟩
  · obtain ⟨htaken, hone⟩ := lowered_ticksElapsed s.dt hp h.1
    rw [State.timerCheck_dt, State.timerCheck_dtLast, if_pos (hdt.2 h), if_pos (hdt.2 h)]
    exact ⟨htaken, hone, rfl⟩
  · rw [State.timerCheck_dt, State.timerCheck_dtLast, if_neg (mt hdt.1 h), if_neg (mt hdt.1 h)]
    exact ⟨rfl, rfl⟩
  · obtain ⟨htaken, hone⟩ := lowered_ticksElapsed s.st hp h.1
    rw [State.timerCheck_st, State.timerCheck_stLast, State.timerCheck_soundTriggers, if_pos (hst.2 h),
      if_pos (hst.2 h), if_pos (hst.2 h)]
    exact ⟨htaken, hone, rfl, rfl⟩
  · rw [State.timerCheck_st, State.timerCheck_stLast, State.timerCheck_soundTriggers, if_neg (mt hst.1 h),
      if_neg (mt hst.1 h), if_neg (mt hst.1 h)]
    exact ⟨rfl, rfl, rfl⟩
end

section
/-! Loading a program (spec/70_reset_and_hazards.md R316 to R318; O55, O56): what a `load` in its window leaves, by the
length of the image, and which requests close the window. -/

namespace Sys2Proof.Machine

/-! ## The two results of a `load` (R316, R317) -/

theorem loadResult_of_le {image : List Byte} (h : image.length ≤ 3584) : loadResult image = .loaded := if_pos h

theorem loadResult_of_gt {image : List Byte} (h : 3584 < image.length) : loadResult image = .rejected :=
  if_neg (Nat.not_le.2 h)

theorem State.load_of_le (s : State) {image : List Byte} (h : image.length ≤ 3584) :
    s.load image = { s with mem := s.mem.writeBytes 0x200 image, loadOpen := false } := by
  rw [State.load, loadResult_of_le h]
  rfl

theorem State.load_of_gt (s : State) {image : List Byte} (h : 3584 < image.length) :
    s.load image = { s with loadOpen := false } := by
  rw [State.load, loadResult_of_gt h]
  rfl

/-! ## The window (R318) -/

theorem perform_load_of_open {s : State} (h : s.loadOpen = true) (image : List Byte) :
    perform (.load image) s = .next (s.load image) := if_pos h

theorem perform_load_of_closed {s : State} (h : s.loadOpen = false) (image : List Byte) :
    perform (.load image) s = .refused .loadOutsideWindow := if_neg (Bool.eq_false_iff.1 h)

theorem State.load_loadOpen (s : State) (image : List Byte) : (s.load image).loadOpen = false := by
  unfold State.load
  split <;> rfl

/-- A step of a running engine closes the window in its first phase, and no branch of any step opens it. -/
theorem StepEffect.loadOpen_eq_false {s t : State} (heff : StepEffect s t) (h : s.running ∨ s.loadOpen = false) :
    t.loadOpen = false := by
  cases heff with
  | halted hf => exact h.resolve_left fun hr => by cases hf.symm.trans hr.1
  | waiting _ hw =>
    rw [State.waitKey_fields]
    exact h.resolve_left fun hr => by cases hw.symm.trans hr.2
  | fetchFault | invalid => exact s.beginStep_loadOpen
  | ran _ _ _ heff =>
    obtain ⟨-, -, -, -, -, hopen⟩ := heff.unwritten_eq
    exact hopen.trans s.beginStep_loadOpen

end Sys2Proof.Machine

open Sys2Proof Sys2Proof.Machine

/-- Settles O55: an image of at most 3584 bytes ends at or below the last address, so all of its bytes are written. -/
theorem loadCopiesTheImageOrRejectsItWhole : Obligations.LoadCopiesTheImageOrRejectsItWhole := by
  intro s image hopen hm
  rw [perform_load_of_open hopen]
  refine ⟨fun hle => ?_, fun hgt => ⟨loadResult_of_gt hgt, by rw [State.load_of_gt s hgt]⟩⟩
  rw [State.load_of_le s hle]
  have hfit : 0x200 + image.length ≤ memSize := by rw [memSize]; omega
  exact ⟨loadResult_of_le hle, _, rfl, fun _ _ hb => Memory.read_writeBytes_getElem? hm hfit hb,
    fun _ ha => Memory.read_writeBytes_outside _ _ _ _ ha, rfl⟩

/-- Settles O56: a load closes the window itself, a step by its effect, and a load is answered by the window alone. -/
theorem lateLoadIsRefused : Obligations.LateLoadIsRefused := by
  refine ⟨fun s t h => ?_, fun s t a hclosed hreset h => ?_, fun _ image hclosed => perform_load_of_closed hclosed image⟩
  · obtain ⟨hrun, h⟩ | ⟨first, h⟩ := h
    · exact (stepEffect_of_step h).loadOpen_eq_false (.inl hrun)
    · rw [perform_load_next h]
      exact s.load_loadOpen first
  · cases a with
    | reset time => exact absurd rfl (hreset time)
    | load image => cases (perform_load_of_closed hclosed image).symm.trans h
    | step inputs => exact (stepEffect_of_step h).loadOpen_eq_false (s := s.setPorts inputs) (.inr hclosed)
end
